-- ==== Sys2Proof/Word.lean ====
section
/-! DEFINITION. The words of the single-wire frame codec: bytes, 32-bit values and wire frames (00_scope.md R6). -/

namespace Sys2Proof

/-- A byte: an 8-bit unsigned value (R6). -/
abbrev Byte := BitVec 8

/-- A 32-bit value: a counter, a clock sample, a status register (R5 `COUNTER_BITS`, `CLOCK_BITS`). Its `+` and `-`
are the spec's `+_32` and `-_32` (R6). -/
abbrev Word := BitVec 32

/-- A wire frame: exactly 4 bytes, `f0` first on the wire (R6, R41). It is never packed into a number. -/
structure Frame where
  f0 : Byte
  f1 : Byte
  f2 : Byte
  f3 : Byte
deriving DecidableEq, Repr, Inhabited

end Sys2Proof
end

