-- ==== Sys2Proof/Syntax.lean ====
section
/-! DEFINITION. The commands of the SWFC: one constructor per row of spec/opcode_table.json (30_encoding.md R67). -/

namespace Sys2Proof

/-- A command with its operand (R64: form N has none, form B one byte, form F one frame). -/
inductive Instr where
  /-- NOP (R140). -/
  | nop
  /-- ENC, the payload byte to encode (R85). -/
  | enc (b : Byte)
  /-- DEC, the frame to decode (R86). -/
  | dec (f : Frame)
  /-- CHK, the frame to validate (R87). -/
  | chk (f : Frame)
  /-- VALB, the wire byte to test (R88). -/
  | valb (w : Byte)
  /-- ALIGN (R104). -/
  | align
  /-- RDFR (R106). -/
  | rdfr
  /-- RXB (R107). -/
  | rxb
  /-- TXB, the payload byte to transmit (R131). -/
  | txb (b : Byte)
  /-- RDSR, the status register index (R141). -/
  | rdsr (idx : Byte)
  /-- CLRCNT (R142). -/
  | clrcnt
  /-- SRST (R143). -/
  | srst
deriving DecidableEq, Repr

end Sys2Proof
end

