-- ==== Sys2Proof/Decode.lean ====
section
/-! DEFINITION. The command port's encoding (30_encoding.md R63 to R70): the decoder, total on any bytes, then the encoder,
and the two readings of the opcode table's numbered words. -/

namespace Sys2Proof

/-- What a byte names in the opcode map: the 12 commands without their operands (R67). -/
inductive Op where
  | nop | enc | dec | chk | valb | align | rdfr | rxb | txb | rdsr | clrcnt | srst
deriving DecidableEq, Repr

/-- The three operand shapes (R64). -/
inductive Form where
  /-- No operand: 1 byte in all. -/
  | none
  /-- One operand byte: 2 bytes in all. -/
  | byte
  /-- One frame: 5 bytes in all. -/
  | frame
deriving DecidableEq, Repr

/-- Why bytes at the port give no command. -/
inductive DecodeError where
  /-- The first byte is in no row of R67's table (R68): illegal, one byte long. -/
  | illegalOpcode (op : Byte)
  /-- The port is empty: the host has issued no command. -/
  | noCommand
  /-- A command has begun and not all of its operand bytes are there yet. -/
  | incomplete
deriving DecidableEq, Repr

/-- The opcode byte of a command (R67). -/
def Op.code : Op → Byte
  | .nop => 0x00
  | .enc => 0x01
  | .dec => 0x02
  | .chk => 0x03
  | .valb => 0x04
  | .align => 0x10
  | .rdfr => 0x11
  | .rxb => 0x12
  | .txb => 0x20
  | .rdsr => 0x30
  | .clrcnt => 0x31
  | .srst => 0xF0

/-- The operand form of a command (R67). -/
def Op.form : Op → Form
  | .nop => .none
  | .enc => .byte
  | .dec => .frame
  | .chk => .frame
  | .valb => .byte
  | .align => .none
  | .rdfr => .none
  | .rxb => .none
  | .txb => .byte
  | .rdsr => .byte
  | .clrcnt => .none
  | .srst => .none

/-- The command an opcode byte names, every bit taking part (R63: the mask is `0xFF`); `none` for the 244 illegal
values (R68). -/
def opOf (c : Byte) : Option Op :=
  match c.toNat with
  | 0x00 => some .nop
  | 0x01 => some .enc
  | 0x02 => some .dec
  | 0x03 => some .chk
  | 0x04 => some .valb
  | 0x10 => some .align
  | 0x11 => some .rdfr
  | 0x12 => some .rxb
  | 0x20 => some .txb
  | 0x30 => some .rdsr
  | 0x31 => some .clrcnt
  | 0xF0 => some .srst
  | _ => none

/-- The length of a command of a form, opcode byte included (R64). -/
def formLength : Form → Nat
  | .none => 1
  | .byte => 2
  | .frame => 5

/-- A command's length from its opcode byte alone (R70); 1 for illegal values. -/
def commandLength (c : Byte) : Nat :=
  match opOf c with
  | some o => formLength o.form
  | none => 1

/-- The first byte of a list, and the rest. -/
def takeByte : List Byte → Option (Byte × List Byte)
  | b :: rest => some (b, rest)
  | [] => none

/-- The first 4 bytes of a list as a frame in index order (R6, R41), and the rest (R47); `none` if there are fewer. -/
def takeFrame : List Byte → Option (Frame × List Byte)
  | b0 :: b1 :: b2 :: b3 :: rest => some (⟨b0, b1, b2, b3⟩, rest)
  | _ => none

/-- The 4 bytes of a frame in index order (R41). -/
def frameBytes (f : Frame) : List Byte := [f.f0, f.f1, f.f2, f.f3]

/-- A command's operand bytes read off the list after its opcode byte (R64), and the bytes after the command. -/
def readOperands : Op → List Byte → Option (Instr × List Byte)
  | .nop, cs => some (.nop, cs)
  | .enc, cs => (takeByte cs).map fun x => (.enc x.1, x.2)
  | .dec, cs => (takeFrame cs).map fun x => (.dec x.1, x.2)
  | .chk, cs => (takeFrame cs).map fun x => (.chk x.1, x.2)
  | .valb, cs => (takeByte cs).map fun x => (.valb x.1, x.2)
  | .align, cs => some (.align, cs)
  | .rdfr, cs => some (.rdfr, cs)
  | .rxb, cs => some (.rxb, cs)
  | .txb, cs => (takeByte cs).map fun x => (.txb x.1, x.2)
  | .rdsr, cs => (takeByte cs).map fun x => (.rdsr x.1, x.2)
  | .clrcnt, cs => some (.clrcnt, cs)
  | .srst, cs => some (.srst, cs)

/-- Decode the command at the front of the port's bytes, and the bytes after it (R63, R64, R68, R70). -/
def decode : List Byte → Except DecodeError (Instr × List Byte)
  | [] => .error .noCommand
  | c :: cs =>
    match opOf c with
    | none => .error (.illegalOpcode c)
    | some o =>
      match readOperands o cs with
      | none => .error .incomplete
      | some r => .ok r

/-- The bytes of a command: its opcode byte, then its operand bytes in index order (R64, R67). -/
def encode : Instr → List Byte
  | .nop => [Op.code .nop]
  | .enc b => [Op.code .enc, b]
  | .dec f => Op.code .dec :: frameBytes f
  | .chk f => Op.code .chk :: frameBytes f
  | .valb w => [Op.code .valb, w]
  | .align => [Op.code .align]
  | .rdfr => [Op.code .rdfr]
  | .rxb => [Op.code .rxb]
  | .txb b => [Op.code .txb, b]
  | .rdsr idx => [Op.code .rdsr, idx]
  | .clrcnt => [Op.code .clrcnt]
  | .srst => [Op.code .srst]

/-- The command a constructor of `Instr` stands for. -/
def Instr.op : Instr → Op
  | .nop => .nop
  | .enc _ => .enc
  | .dec _ => .dec
  | .chk _ => .chk
  | .valb _ => .valb
  | .align => .align
  | .rdfr => .rdfr
  | .rxb => .rxb
  | .txb _ => .txb
  | .rdsr _ => .rdsr
  | .clrcnt => .clrcnt
  | .srst => .srst

/-- The first `k` bytes of a number that holds a command as the opcode table numbers its bits: the first byte in
bits 7..0, the second in bits 15..8, and so on. -/
def bytesOfNat : Nat → Nat → List Byte
  | 0, _ => []
  | k + 1, w => BitVec.ofNat 8 w :: bytesOfNat k (w / 256)

/-- The bytes at the port of the command a table word gives: the word's low `nbits` bits, zeros above them, laid out
first byte first and cut to the length its opcode byte fixes (R70). -/
def tableWordBytes (nbits w : Nat) : List Byte :=
  bytesOfNat (commandLength (BitVec.ofNat 8 (w % 2 ^ nbits))) (w % 2 ^ nbits)

/-- The command the decoder reads from a word of the opcode table. -/
def decodeTableWord (nbits w : Nat) : Option Instr :=
  match decode (tableWordBytes nbits w) with
  | .ok (i, _) => some i
  | .error _ => none

end Sys2Proof
end

