-- ==== Sys2Proof/Config.lean ====
section
/-! DEFINITION. What is fixed for one instance of the SWFC (the parameters of 00_scope.md R5), the answers its environment
gives (R44, R45), and the free values the spec leaves open. -/

namespace Sys2Proof

/-- The parameters of R5. Each is fixed for the life of one instance and is no part of the SWFC's state (R21 a): the
machine's `State` carries them beside the SWFC, and no step changes them (log 1). -/
structure Params where
  /-- `CODEC_BASE`. -/
  base : Byte
  /-- `CODEC_POS_LO`, a bit index 0..7. -/
  posLo : Fin 8
  /-- `CODEC_POS_HI`, a bit index 0..7. -/
  posHi : Fin 8
  /-- `RAW_CAP`. -/
  rawCap : Nat
  /-- `RAW_TAIL`. -/
  rawTail : Nat
  /-- `TX_GAP_MS`. -/
  txGapMs : Nat
deriving DecidableEq, Repr

/-- The default column of R5, which every vector of 95_test_vectors.md uses. The codec values and the gap are marked
general knowledge by the spec itself (93 G1, G2). -/
def Params.default : Params :=
  { base := 0xFF, posLo := 2, posHi := 5, rawCap := 64, rawTail := 3, txGapMs := 8 }

/-- One answer of `TransportRead()` (R44): a failure, or a reported count `n` (no upper bound) and a 4-byte buffer `b`,
of which only the bytes at indexes below `n` carry meaning. -/
inductive ReadAnswer where
  | fail
  | data (n : Nat) (b : Frame)
deriving DecidableEq, Repr, Inhabited

/-- One answer of `TransportWrite(F)` (R45): success, or a failure after which some prefix of the frame, of length
`sent`, has reached the wire. The SWFC does not learn `sent`; only the write history shows it (U2). -/
inductive WriteAnswer where
  | success
  | failure (sent : Fin 5)
deriving DecidableEq, Repr, Inhabited

/-- Free value (U4): the transport's answer to a read for which `Env` lists none, by the draw's number. Nothing is
known of it. DESIGN CHOICE, log 2, safe. -/
opaque Config.freeRead : Nat → ReadAnswer

/-- Free value (U2): the transport's answer to a write for which `Env` lists none. DESIGN CHOICE, log 2, safe. -/
opaque Config.freeWrite : Nat → WriteAnswer

/-- Free value (U5): the clock's draw for a sample for which `Env` lists none. DESIGN CHOICE, log 2, safe. -/
opaque Config.freeClock : Nat → Word

end Sys2Proof
end

