-- ==== Sys2Proof/Machine/State.lean ====
section
/-! DEFINITION. The machine's state as plain data: the SWFC's own state (10_state.md R20, exactly), and beside it what one
run needs of the SWFC's environment (R8, R179); the state after reset (R170); the reasons a step could stop. -/

namespace Sys2Proof.Machine

/-- The 8 event counters `CNT[0..7]`, under the names of R22 in index order. -/
inductive Counter where
  | frames | filter | resync | trunc | purge | tx | txerr | rxerr
deriving DecidableEq, Repr

/-- The values of `CNT[0..7]`, 32 bits each (R22). -/
structure Counters where
  frames : Word
  filter : Word
  resync : Word
  trunc : Word
  purge : Word
  tx : Word
  txerr : Word
  rxerr : Word
deriving DecidableEq, Repr

/-- The SWFC's state: exactly the components of R20. -/
structure Swfc where
  /-- `RAW`: bytes taken from the transport and not yet discarded or extracted, the oldest first. -/
  raw : List Byte
  /-- `CNT[0..7]`. -/
  cnt : Counters
  /-- `TX_ARMED`, 1 bit. -/
  txArmed : Bool
  /-- `TX_READY_AT`. -/
  txReadyAt : Word
deriving DecidableEq, Repr

/-- The status codes of R66. -/
inductive Status where
  | ok | noframe | rxerr | txerr | illegal
deriving DecidableEq, Repr

/-- One response: a status and 0, 1 or 4 data bytes (R65). -/
structure Response where
  status : Status
  data : List Byte
deriving DecidableEq, Repr

/-- One event of the write history (R132): the frame, the transport's answer (its `ok`, and the prefix that a failed
write emitted) and the clock sample at which it was written. -/
structure WriteEvent where
  frame : Frame
  answer : WriteAnswer
  t : Word
deriving DecidableEq, Repr

/-- The environment's inputs to come (R8 c, d). They are no state of the SWFC (R21 b, c). An empty list means that the
next answer is a free value of Config (log 2). -/
structure Env where
  /-- The transport's next read answers, the next one first (R44). -/
  reads : List ReadAnswer
  /-- The transport's next write answers, the next one first (R45). -/
  writes : List WriteAnswer
  /-- The draws of the next clock samples, the next one first (R157; log 3). -/
  clock : List Word
  /-- The last clock sample, if one was made (R157). -/
  lastSample : Option Word
  /-- How many free values of Config have been used. The model's own, not the spec's (log 2). -/
  draws : Nat
deriving DecidableEq, Repr

/-- A state of the machine: the SWFC, the parameters of its instance (R5), the host's command bytes not yet taken
(R9, R63), its environment's inputs, and what a run has shown so far (R179). -/
structure State where
  swfc : Swfc
  params : Params
  port : List Byte
  env : Env
  responses : List Response
  writes : List WriteEvent
deriving DecidableEq, Repr

/-- All counters 0 (R142, R170). -/
def Counters.zero : Counters :=
  { frames := 0, filter := 0, resync := 0, trunc := 0, purge := 0, tx := 0, txerr := 0, rxerr := 0 }

/-- The SWFC after reset (R20, R170). -/
def Swfc.reset : Swfc :=
  { raw := [], cnt := Counters.zero, txArmed := false, txReadyAt := 0 }

/-- No answer listed, no sample made. -/
def Env.reset : Env :=
  { reads := [], writes := [], clock := [], lastSample := none, draws := 0 }

/-- The machine right after reset (R170): the SWFC as the spec says, nothing at the command port, nothing observed
yet, the default parameters of R5 (DESIGN CHOICE for everything outside `swfc`: log 1, 2, 4). -/
def State.reset : State :=
  { swfc := Swfc.reset, params := Params.default, port := [], env := Env.reset, responses := [], writes := [] }

/-- The machine has no fault: no command raises a trap or stops (R150), so no constructor is needed. Nobody raises
it, and claims that rest on its absence are safe (log 16). -/
inductive Fault where
deriving DecidableEq, Repr

/-- Why the model has no meaning for an instruction. -/
inductive Refusal where
  /-- Raised only by an arm of `exec` whose instruction has no meaning yet; safe. No arm raises it in this model. -/
  | notModelled (mnemonic : String)
deriving DecidableEq, Repr

end Sys2Proof.Machine
end

