-- ==== Sys2Proof/Machine/Operands.lean ====
section
/-! DEFINITION. The byte codec (40_codec.md R80 to R83, 30_encoding.md R61) and the data bytes of a response (R65). All pure. -/

namespace Sys2Proof.Machine

/-- Bit `i` of a byte as a byte, 0 or 1. -/
def bitByte (v : Byte) (i : Nat) : Byte := if v.getLsbD i then 1 else 0

/-- `CODEC_MASK = (1 << CODEC_POS_LO) | (1 << CODEC_POS_HI)` (R5). -/
def codecMask (p : Params) : Byte := ((1 : Byte) <<< p.posLo.val) ||| ((1 : Byte) <<< p.posHi.val)

/-- `ENC(b)[i]` (R80): the base pattern outside the mask, payload bits `2i` and `2i+1` at the two positions. -/
def encByte (p : Params) (b : Byte) (i : Nat) : Byte :=
  (p.base &&& ~~~(codecMask p)) ||| (bitByte b (2 * i) <<< p.posLo.val) ||| (bitByte b (2 * i + 1) <<< p.posHi.val)

/-- `ENC(b)` (R80). -/
def enc (p : Params) (b : Byte) : Frame :=
  ⟨encByte p b 0, encByte p b 1, encByte p b 2, encByte p b 3⟩

/-- The two payload bits that frame byte `w` at index `i` carries, in their places (R81). -/
def decByte (p : Params) (w : Byte) (i : Nat) : Byte :=
  (bitByte w p.posLo.val <<< (2 * i)) ||| (bitByte w p.posHi.val <<< (2 * i + 1))

/-- `DEC(F)` (R81): defined for every frame, valid or not. -/
def dec (p : Params) (f : Frame) : Byte :=
  decByte p f.f0 0 ||| decByte p f.f1 1 ||| decByte p f.f2 2 ||| decByte p f.f3 3

/-- `VALID(w)` (R61), in the form R61 derives from its definition: the bits outside the mask equal the base's (log 8). -/
def validByte (p : Params) (w : Byte) : Bool := w &&& ~~~(codecMask p) == p.base &&& ~~~(codecMask p)

/-- `RT_OK(F) := ENC(DEC(F)) == F` (R83). -/
def rtOk (p : Params) (f : Frame) : Bool := decide (enc p (dec p f) = f)

/-- A 32-bit value as 4 data bytes, least significant first (R65, R141). -/
def le32 (v : Word) : List Byte :=
  [v.extractLsb' 0 8, v.extractLsb' 8 8, v.extractLsb' 16 8, v.extractLsb' 24 8]

/-- The bytes a read answer `RxData(n, B)` delivers: `B[0 .. min(n, 4))` (R44). -/
def delivered (n : Nat) (b : Frame) : List Byte := (frameBytes b).take (min n 4)

/-- The code of a status, the first byte of a response (R66). -/
def statusCode : Status → Byte
  | .ok => 0x00
  | .noframe => 0x01
  | .rxerr => 0x02
  | .txerr => 0x03
  | .illegal => 0x0F

/-- A response as the bytes the host reads: the status byte, then the data (R65). -/
def responseBytes (r : Response) : List Byte := statusCode r.status :: r.data

/-- Whether a transport write reported success (R45). -/
def writeOk : WriteAnswer → Bool
  | .success => true
  | .failure _ => false

/-- The bytes a write put on the wire: all 4 in index order, or the prefix a failed write emitted (R45, R132). -/
def wireBytes (e : WriteEvent) : List Byte :=
  match e.answer with
  | .success => frameBytes e.frame
  | .failure sent => (frameBytes e.frame).take sent.val

end Sys2Proof.Machine
end

