-- ==== Sys2Proof/Machine/Flags.lean ====
section
/-! DEFINITION. The SWFC has no flags (10_state.md R26). These are the one-bit conditions its commands compute. -/

namespace Sys2Proof.Machine

/-- A condition as a response's data byte: `0x01` or `0x00` (R67). -/
def boolByte (c : Bool) : Byte := if c then 0x01 else 0x00

/-- `AFTER(a, t) := (a -_32 t) < 2^31` (R157): `a` is at or after `t`. -/
def after (a t : Word) : Bool := decide ((a - t).toNat < 2147483648)

/-- `TX_WAIT(t)` (R130): the gap is armed and `1 <= (TX_READY_AT -_32 t) <= TX_GAP_MS`. -/
def txWait (p : Params) (m : Swfc) (t : Word) : Bool :=
  m.txArmed && decide (1 ≤ (m.txReadyAt - t).toNat) && decide ((m.txReadyAt - t).toNat ≤ p.txGapMs)

/-- The next clock sample, from the last one and a draw (R157, U5): the first sample is a free 32-bit value; a later
one lies less than `2^31` after the last, modulo `2^32`. Monotonic by construction (log 3). -/
def sampleAfter (last : Option Word) (d : Word) : Word :=
  match last with
  | none => d
  | some t => t + (d &&& 0x7FFFFFFF)

end Sys2Proof.Machine
end

