-- ==== Sys2Proof/Machine/Ops.lean ====
section
/-! DEFINITION. The shared operations of the machine: responding and reporting an error, counting, the environment's three
calls, the raw buffer's primitives, the alignment procedure, reading a frame, holding, and taking a command off the port. -/

namespace Sys2Proof.Machine

/-- `respond S, D` (R65): the command's one response, added to what the host has read. -/
def respond (st : Status) (d : List Byte) (s : State) : State :=
  { s with responses := s.responses ++ [⟨st, d⟩] }

/-- The report of an illegal command (R68, R69, R151): status `ILLEGAL`, no data, no state change. The SWFC has no trap
(R150), so this one report stands where other hardware takes an exception, and nothing has to be returned from (R154). -/
def reportIllegal (s : State) : State := respond .illegal [] s

/-- `CNT[k]` (R22). -/
def counterValue (c : Counters) : Counter → Word
  | .frames => c.frames
  | .filter => c.filter
  | .resync => c.resync
  | .trunc => c.trunc
  | .purge => c.purge
  | .tx => c.tx
  | .txerr => c.txerr
  | .rxerr => c.rxerr

/-- `CNT[k] <- CNT[k] +_32 1` (R22). -/
def bump (k : Counter) (c : Counters) : Counters :=
  match k with
  | .frames => { c with frames := c.frames + 1 }
  | .filter => { c with filter := c.filter + 1 }
  | .resync => { c with resync := c.resync + 1 }
  | .trunc => { c with trunc := c.trunc + 1 }
  | .purge => { c with purge := c.purge + 1 }
  | .tx => { c with tx := c.tx + 1 }
  | .txerr => { c with txerr := c.txerr + 1 }
  | .rxerr => { c with rxerr := c.rxerr + 1 }

/-- A state with one counter incremented. -/
def count (k : Counter) (s : State) : State :=
  { s with swfc := { s.swfc with cnt := bump k s.swfc.cnt } }

/-- `TransportRead()` (R44): the next listed answer, else a free value (log 2). -/
def transportRead (s : State) : ReadAnswer × State :=
  match s.env.reads with
  | a :: rest => (a, { s with env := { s.env with reads := rest } })
  | [] => (Config.freeRead s.env.draws, { s with env := { s.env with draws := s.env.draws + 1 } })

/-- The transport's answer to one write (R45): the next listed one, else a free value (log 2). -/
def writeAnswer (s : State) : WriteAnswer × State :=
  match s.env.writes with
  | a :: rest => (a, { s with env := { s.env with writes := rest } })
  | [] => (Config.freeWrite s.env.draws, { s with env := { s.env with draws := s.env.draws + 1 } })

/-- `TransportWrite(F)` at clock sample `t` (R45): one call with the whole frame, its event added to the write history
(R132). Answers whether the transport reported success. -/
def transportWrite (f : Frame) (t : Word) (s : State) : Bool × State :=
  let r := writeAnswer s
  (writeOk r.1, { r.2 with writes := r.2.writes ++ [⟨f, r.1, t⟩] })

/-- `Now()` (R157): one sample of the clock, from the next listed draw or else a free value (log 2, 3). -/
def now (s : State) : Word × State :=
  match s.env.clock with
  | d :: rest =>
    let t := sampleAfter s.env.lastSample d
    (t, { s with env := { s.env with clock := rest, lastSample := some t } })
  | [] =>
    let t := sampleAfter s.env.lastSample (Config.freeClock s.env.draws)
    (t, { s with env := { s.env with lastSample := some t, draws := s.env.draws + 1 } })

/-- The list part of `RawAppend(L)` (R46): append, then keep only the newest `RAW_TAIL` bytes if the cap is passed. -/
def appendPurge (p : Params) (raw l : List Byte) : List Byte :=
  if (raw ++ l).length > p.rawCap then (raw ++ l).drop ((raw ++ l).length - p.rawTail) else raw ++ l

/-- `RawAppend(L)` (R46): `CNT_PURGE` counts a purge once. -/
def rawAppend (l : List Byte) (s : State) : State :=
  let c := if (s.swfc.raw ++ l).length > s.params.rawCap then bump .purge s.swfc.cnt else s.swfc.cnt
  { s with swfc := { s.swfc with raw := appendPurge s.params s.swfc.raw l, cnt := c } }

/-- The front 4 bytes of RAW, if it holds 4 (R100 step 2 and 3). -/
def window (raw : List Byte) : Option Frame := (takeFrame raw).map Prod.fst

/-- The loop of `ALIGN_PROC()` (R100) on RAW and the counters: drop an invalid front byte (CNT_FILTER); stop with 0 when
fewer than 4 bytes are left; stop with 1 when the trial passes; else drop the front byte (CNT_RESYNC) and scan again.
It answers the aligned bit, RAW and the counters. -/
def alignLoop (p : Params) : List Byte → Counters → Bool × List Byte × Counters
  | [], c => (false, [], c)
  | w :: rest, c =>
    if validByte p w then
      match window (w :: rest) with
      | none => (false, w :: rest, c)
      | some t => if rtOk p t then (true, w :: rest, c) else alignLoop p rest (bump .resync c)
    else alignLoop p rest (bump .filter c)

/-- `ALIGN_PROC()` (R100): no transport call, no clock sample. -/
def alignProc (s : State) : Bool × State :=
  let r := alignLoop s.params s.swfc.raw s.swfc.cnt
  (r.1, { s with swfc := { s.swfc with raw := r.2.1, cnt := r.2.2 } })

/-- The end of RDFR (R106): when aligned, the front 4 bytes leave RAW and are returned (`CNT_FRAMES`); else `NOFRAME`.
(Aligned with fewer than 4 bytes cannot be, R101; log 14.) -/
def extractFrame (a : Bool) (s : State) : Except Status Frame × State :=
  match a, takeFrame s.swfc.raw with
  | true, some (f, rest) => (.ok f, count .frames { s with swfc := { s.swfc with raw := rest } })
  | true, none => (.error .noframe, s)
  | false, _ => (.error .noframe, s)

/-- The middle of RDFR (R106), on a read's answer: count a failure, or count an over-long report, append the delivered
bytes and align again. -/
def takeRead (r : ReadAnswer) (s : State) : Except Status Frame × State :=
  match r with
  | .fail => (.error .rxerr, count .rxerr s)
  | .data n b =>
    let s1 := if n > 4 then count .trunc s else s
    let x := alignProc (rawAppend (delivered n b) s1)
    extractFrame x.1 x.2

/-- The body of RDFR (R106), shared by RDFR and RXB (R107): a frame, or the status it ends with. -/
def readFrame (s : State) : Except Status Frame × State :=
  let x := alignProc s
  if x.2.swfc.raw.length < 4 then
    let r := transportRead x.2
    takeRead r.1 r.2
  else extractFrame x.1 x.2

/-- `SR[idx]` (R23); `none` for an index that names no register (R69). -/
def statusReg (m : Swfc) (idx : Byte) : Option Word :=
  match idx.toNat with
  | 0 => some m.cnt.frames
  | 1 => some m.cnt.filter
  | 2 => some m.cnt.resync
  | 3 => some m.cnt.trunc
  | 4 => some m.cnt.purge
  | 5 => some m.cnt.tx
  | 6 => some m.cnt.txerr
  | 7 => some m.cnt.rxerr
  | 8 => some (BitVec.ofNat 32 m.raw.length)
  | 9 => some m.txReadyAt
  | 10 => some (if m.txArmed then 1 else 0)
  | _ => none

/-- The hold of R130: the command takes no effect and stays at the front of the port, to try again with a later sample
(log 6). -/
def hold (i : Instr) (s : State) : State := { s with port := encode i ++ s.port }

/-- Taking the next command off the port (R9, R25, R63): the command and the machine with the command's bytes taken. -/
def fetch (s : State) : Except DecodeError (Instr × State) :=
  match decode s.port with
  | .ok (i, rest) => .ok (i, { s with port := rest })
  | .error e => .error e

/-- What the SWFC does with bytes that give no command: it responds `ILLEGAL` to an illegal opcode byte, which is one
byte long (R68); it waits while no whole command is there (log 5). -/
def withoutCommand (e : DecodeError) (s : State) : State :=
  match e with
  | .illegalOpcode _ => reportIllegal { s with port := s.port.drop 1 }
  | .noCommand => s
  | .incomplete => s

end Sys2Proof.Machine
end

