-- ==== Sys2Proof/Machine/Codec.lean ====
section
/-! DEFINITION. The byte codec family: ENC, DEC, CHK, VALB (40_codec.md). They write no state of the SWFC. -/

namespace Sys2Proof.Machine

/-- ENC (R85). -/
def execEnc (b : Byte) (s : State) : Host.Outcome State Fault Refusal :=
  .next (respond .ok (frameBytes (enc s.params b)) s)

/-- DEC (R86). -/
def execDec (f : Frame) (s : State) : Host.Outcome State Fault Refusal :=
  .next (respond .ok [dec s.params f] s)

/-- CHK (R87). -/
def execChk (f : Frame) (s : State) : Host.Outcome State Fault Refusal :=
  .next (respond .ok [boolByte (rtOk s.params f)] s)

/-- VALB (R88). -/
def execValb (w : Byte) (s : State) : Host.Outcome State Fault Refusal :=
  .next (respond .ok [boolByte (validByte s.params w)] s)

end Sys2Proof.Machine
end

