-- ==== Sys2Proof/Machine/Control.lean ====
section
/-! DEFINITION. The control family: NOP, RDSR, CLRCNT, SRST (43_control.md). -/

namespace Sys2Proof.Machine

/-- NOP (R140). -/
def execNop (s : State) : Host.Outcome State Fault Refusal := .next (respond .ok [] s)

/-- RDSR (R141): the register's value little-endian, or `ILLEGAL` for a reserved index (R69). -/
def execRdsr (idx : Byte) (s : State) : Host.Outcome State Fault Refusal :=
  .next (match statusReg s.swfc idx with
    | some v => respond .ok (le32 v) s
    | none => reportIllegal s)

/-- CLRCNT (R142). -/
def execClrcnt (s : State) : Host.Outcome State Fault Refusal :=
  .next (respond .ok [] { s with swfc := { s.swfc with cnt := Counters.zero } })

/-- SRST (R143): exactly the reset of R170, for the SWFC's state; no transport call. -/
def execSrst (s : State) : Host.Outcome State Fault Refusal :=
  .next (respond .ok [] { s with swfc := Swfc.reset })

end Sys2Proof.Machine
end

