-- ==== Sys2Proof/Machine/Synchronizer.lean ====
section
/-! DEFINITION. The frame synchronizer family: ALIGN, RDFR, RXB (41_synchronizer.md). -/

namespace Sys2Proof.Machine

/-- ALIGN (R104). -/
def execAlign (s : State) : Host.Outcome State Fault Refusal :=
  let x := alignProc s
  .next (respond .ok [boolByte x.1] x.2)

/-- RDFR (R106). -/
def execRdfr (s : State) : Host.Outcome State Fault Refusal :=
  let x := readFrame s
  .next (match x.1 with
    | .ok f => respond .ok (frameBytes f) x.2
    | .error st => respond st [] x.2)

/-- RXB (R107). -/
def execRxb (s : State) : Host.Outcome State Fault Refusal :=
  let x := readFrame s
  .next (match x.1 with
    | .ok f => respond .ok [dec s.params f] x.2
    | .error st => respond st [] x.2)

end Sys2Proof.Machine
end

