-- ==== Sys2Proof/Machine/Transmit.lean ====
section
/-! DEFINITION. The transmit family: TXB (42_transmit.md). -/

namespace Sys2Proof.Machine

/-- TXB's effect at the sample `t` that ends its hold (R131): one write of the encoded frame, the gap armed whatever the
transport answers, one counter, one response. -/
def transmit (b : Byte) (t : Word) (s : State) : State :=
  let r := transportWrite (enc s.params b) t s
  let s1 := { r.2 with swfc := { r.2.swfc with
    txArmed := true, txReadyAt := t + BitVec.ofNat 32 s.params.txGapMs } }
  match r.1 with
  | true => respond .ok [] (count .tx s1)
  | false => respond .txerr [] (count .txerr s1)

/-- TXB (R131): one clock sample; while it waits for the gap it holds (R130), else it transmits. -/
def execTxb (b : Byte) (s : State) : Host.Outcome State Fault Refusal :=
  let x := now s
  .next (match txWait s.params s.swfc x.1 with
    | true => hold (.txb b) x.2
    | false => transmit b x.1 x.2)

end Sys2Proof.Machine
end

