-- ==== Sys2Proof/Machine/Dispatch.lean ====
section
/-! DEFINITION. The meaning of a command: one arm per constructor of Instr (30_encoding.md R67). -/

namespace Sys2Proof.Machine

def exec (i : Instr) (s : State) : Host.Outcome State Fault Refusal :=
  match i with
  | .nop => Sys2Proof.Machine.execNop s
  | .enc b => Sys2Proof.Machine.execEnc b s
  | .dec f => Sys2Proof.Machine.execDec f s
  | .chk f => Sys2Proof.Machine.execChk f s
  | .valb w => Sys2Proof.Machine.execValb w s
  | .align => Sys2Proof.Machine.execAlign s
  | .rdfr => Sys2Proof.Machine.execRdfr s
  | .rxb => Sys2Proof.Machine.execRxb s
  | .txb b => Sys2Proof.Machine.execTxb b s
  | .rdsr idx => Sys2Proof.Machine.execRdsr idx s
  | .clrcnt => Sys2Proof.Machine.execClrcnt s
  | .srst => Sys2Proof.Machine.execSrst s

end Sys2Proof.Machine
end

