-- ==== Sys2Proof/Machine/Step.lean ====
section
/-! DEFINITION. One step of the machine: the next command at the port, executed (00_scope.md R9). -/

namespace Sys2Proof.Machine

/-- One step (R9): take the command at the front of the port and execute it. Bytes that give no command are handled as
`withoutCommand` says (R68; log 5). -/
def step (s : State) : Host.Outcome State Fault Refusal :=
  match fetch s with
  | .ok (i, s1) => exec i s1
  | .error e => .next (withoutCommand e s)

/-- `s` with the command of a table word issued next at the port, before whatever the host had issued (log 4). -/
def State.withFetchWord (s : State) (nbits w : Nat) : State :=
  { s with port := tableWordBytes nbits w ++ s.port }

end Sys2Proof.Machine
end

