-- ==== Sys2Proof/Machine/Listing.lean ====
section
/-! DEFINITION. The command listing (30_encoding.md R71) and its two pseudo-instructions (R72), as functions on characters.
No step of the machine uses this file: it says how a listing's text becomes command bytes. -/

namespace Sys2Proof.Machine

/-- The mnemonic of a command (R67, R71). -/
def mnemonicOf : Op → String
  | .nop => "NOP"
  | .enc => "ENC"
  | .dec => "DEC"
  | .chk => "CHK"
  | .valb => "VALB"
  | .align => "ALIGN"
  | .rdfr => "RDFR"
  | .rxb => "RXB"
  | .txb => "TXB"
  | .rdsr => "RDSR"
  | .clrcnt => "CLRCNT"
  | .srst => "SRST"

/-- All commands, in the table's order (R67). -/
def allOps : List Op :=
  [.nop, .enc, .dec, .chk, .valb, .align, .rdfr, .rxb, .txb, .rdsr, .clrcnt, .srst]

/-- The names of the status registers in index order (R23), for RDSR's operand (R71). -/
def statusRegNames : List String :=
  ["CNT_FRAMES", "CNT_FILTER", "CNT_RESYNC", "CNT_TRUNC", "CNT_PURGE", "CNT_TX", "CNT_TXERR", "CNT_RXERR", "RAW_LEN",
   "TX_READY_AT", "TX_ARMED"]

/-- `TXSTR "s"` (R72): one TXB for each byte of `s`, in order. -/
def txstr (bs : List Byte) : List Instr := bs.map Instr.txb

/-- `RXN k` (R72): `k` copies of RXB. -/
def rxn (k : Nat) : List Instr := List.replicate k Instr.rxb

/-- A piece of a listing's line: a word, a character literal's byte, or a string's bytes. -/
inductive Token where
  | word (cs : List Char)
  | byte (b : Byte)
  | str (bs : List Byte)
deriving DecidableEq, Repr

/-- Where the reader of a line stands: between pieces, in a word, in a character literal (at its start, after a
backslash, before its closing quote), or in a string (plain, or after a backslash). What is collected is in reverse. -/
inductive LexMode where
  | gap
  | word (acc : List Char)
  | chr
  | chrEsc
  | chrEnd (b : Byte)
  | str (acc : List Byte)
  | strEsc (acc : List Byte)
deriving DecidableEq, Repr

/-- The apostrophe around a character literal. -/
def quoteChar : Char := Char.ofNat 39
/-- The double quote around a string. -/
def stringChar : Char := Char.ofNat 34
/-- The backslash that begins an escape. -/
def escapeChar : Char := Char.ofNat 92
/-- The end of a line. -/
def newlineChar : Char := Char.ofNat 10

/-- A blank between the pieces of a line: space, tab or carriage return (log 13). -/
def isBlank (c : Char) : Bool := c.toNat == 32 || c.toNat == 9 || c.toNat == 13

/-- A character's ASCII code (R71); `none` beyond ASCII. -/
def asciiByte (c : Char) : Option Byte := if c.toNat < 128 then some (BitVec.ofNat 8 c.toNat) else none

/-- The two escapes of R71. -/
def escapeByte (c : Char) : Option Byte :=
  if c = 'r' then some 0x0D else if c = 'n' then some 0x0A else none

/-- The pieces of one line, up to a comment (R71: a semicolon starts one). Where R71 is silent this is the model's choice
(DESIGN CHOICE, log 13): inside a literal a semicolon, a blank and a line end are characters; an apostrophe between two
apostrophes is the character apostrophe; a double quote ends a string. A backslash begins one of R71's escapes, in a string
as in a character literal (95_test_vectors.md P1). `none` for a literal that is not closed or holds no character of R71. -/
def lex : LexMode → List Char → Option (List Token)
  | .gap, [] => some []
  | .word acc, [] => some [.word acc.reverse]
  | .chr, [] => none
  | .chrEsc, [] => none
  | .chrEnd _, [] => none
  | .str _, [] => none
  | .strEsc _, [] => none
  | .gap, c :: cs =>
    if c = ';' then some []
    else if isBlank c then lex .gap cs
    else if c = quoteChar then lex .chr cs
    else if c = stringChar then lex (.str []) cs
    else lex (.word [c]) cs
  | .word acc, c :: cs =>
    if c = ';' then some [.word acc.reverse]
    else if isBlank c then (lex .gap cs).map (Token.word acc.reverse :: ·)
    else lex (.word (c :: acc)) cs
  | .chr, c :: cs =>
    if c = escapeChar then lex .chrEsc cs
    else (asciiByte c).bind fun b => lex (.chrEnd b) cs
  | .chrEsc, c :: cs => (escapeByte c).bind fun b => lex (.chrEnd b) cs
  | .chrEnd b, c :: cs => if c = quoteChar then (lex .gap cs).map (Token.byte b :: ·) else none
  | .str acc, c :: cs =>
    if c = stringChar then (lex .gap cs).map (Token.str acc.reverse :: ·)
    else if c = escapeChar then lex (.strEsc acc) cs
    else (asciiByte c).bind fun b => lex (.str (b :: acc)) cs
  | .strEsc acc, c :: cs => (escapeByte c).bind fun b => lex (.str (b :: acc)) cs

/-- A hex digit's value, capital or small (log 13). -/
def hexDigit (c : Char) : Option Nat :=
  if 48 ≤ c.toNat ∧ c.toNat ≤ 57 then some (c.toNat - 48)
  else if 65 ≤ c.toNat ∧ c.toNat ≤ 70 then some (c.toNat - 55)
  else if 97 ≤ c.toNat ∧ c.toNat ≤ 102 then some (c.toNat - 87)
  else none

/-- Two hex digits as a byte (R6). -/
def hexPair (a b : Char) : Option Byte :=
  (hexDigit a).bind fun x => (hexDigit b).map fun y => BitVec.ofNat 8 (16 * x + y)

/-- A decimal number: one digit or more. -/
def decimal (cs : List Char) : Option Nat :=
  if cs ≠ [] ∧ (cs.all fun c => decide (48 ≤ c.toNat) && decide (c.toNat ≤ 57)) = true then
    some (cs.foldl (fun n c => 10 * n + (c.toNat - 48)) 0)
  else none

/-- A byte operand: `0xNN` or a character literal (R71). -/
def byteOperand : Token → Option Byte
  | .byte b => some b
  | .word [z, x, a, b] => if z = '0' ∧ x = 'x' then hexPair a b else none
  | .word _ => none
  | .str _ => none

/-- One byte of a frame operand: 2 hex digits (R71). -/
def frameByteOperand : Token → Option Byte
  | .word [a, b] => hexPair a b
  | .word _ => none
  | .byte _ => none
  | .str _ => none

/-- An RDSR index: a register's name, or a decimal number (R71). Numbers up to 255 are read, so that the vectors that
name no register can be written (`RDSR 11`, 95_test_vectors.md P7; log 13). -/
def indexOperand : Token → Option Byte
  | .word cs =>
    match statusRegNames.findIdx? (fun n => n.toList == cs) with
    | some k => some (BitVec.ofNat 8 k)
    | none => (decimal cs).bind fun n => if n < 256 then some (BitVec.ofNat 8 n) else none
  | .byte _ => none
  | .str _ => none

/-- One byte operand, and nothing after it. -/
def oneByte (args : List Token) : Option Byte :=
  match args with
  | [a] => byteOperand a
  | _ => none

/-- One frame operand of 4 bytes, and nothing after it. -/
def oneFrame (args : List Token) : Option Frame :=
  match args with
  | [a, b, c, d] =>
    (frameByteOperand a).bind fun w0 => (frameByteOperand b).bind fun w1 =>
      (frameByteOperand c).bind fun w2 => (frameByteOperand d).map fun w3 => ⟨w0, w1, w2, w3⟩
  | _ => none

/-- One RDSR index, and nothing after it. -/
def oneIndex (args : List Token) : Option Byte :=
  match args with
  | [a] => indexOperand a
  | _ => none

/-- No operand. -/
def noOperand (i : Instr) (args : List Token) : Option Instr := if args = [] then some i else none

/-- A command of a listing, from its mnemonic and operand (R71). -/
def listedCommand (o : Op) (args : List Token) : Option Instr :=
  match o with
  | .nop => noOperand .nop args
  | .enc => (oneByte args).map .enc
  | .dec => (oneFrame args).map .dec
  | .chk => (oneFrame args).map .chk
  | .valb => (oneByte args).map .valb
  | .align => noOperand .align args
  | .rdfr => noOperand .rdfr args
  | .rxb => noOperand .rxb args
  | .txb => (oneByte args).map .txb
  | .rdsr => (oneIndex args).map .rdsr
  | .clrcnt => noOperand .clrcnt args
  | .srst => noOperand .srst args

/-- The commands of a line's pieces: none for a blank line, one for a command, several for a pseudo-instruction (R72). -/
def lineCommands (ts : List Token) : Option (List Instr) :=
  match ts with
  | [] => some []
  | .word m :: args =>
    match allOps.find? (fun o => (mnemonicOf o).toList == m) with
    | some o => (listedCommand o args).map fun i => [i]
    | none =>
      match args with
      | [.str bs] => if m = "TXSTR".toList then some (txstr bs) else none
      | [.word k] => if m = "RXN".toList then (decimal k).map rxn else none
      | _ => none
  | .byte _ :: _ => none
  | .str _ :: _ => none

/-- The commands of one line of a listing (R71, R72); `none` if it is no line of R71's syntax. -/
def assembleLine (cs : List Char) : Option (List Instr) := (lex .gap cs).bind lineCommands

/-- The lines of a text. -/
def textLines : List Char → List (List Char)
  | [] => [[]]
  | c :: cs =>
    if c = newlineChar then [] :: textLines cs
    else
      match textLines cs with
      | l :: ls => (c :: l) :: ls
      | [] => [[c]]

/-- The commands of all lines, in order. -/
def linesCommands : List (List Char) → Option (List Instr)
  | [] => some []
  | l :: ls => (assembleLine l).bind fun is => (linesCommands ls).map fun js => is ++ js

/-- A listing's text as command bytes for the port, opcode byte first (R71). -/
def assemble (text : List Char) : Option (List Byte) :=
  (linesCommands (textLines text)).map fun is => is.flatMap encode

end Sys2Proof.Machine
end

