-- ==== Sys2Proof/Machine/Run.lean ====
section
/-! DEFINITION. A run: a finite sequence of commands from the reset state, its end and its observation
(70_reset_and_hazards.md R179). -/

namespace Sys2Proof.Machine

/-- A command as the host issues it: one of the 12 commands, or an illegal opcode byte, which is a command of one byte
that responds `ILLEGAL` (R68). -/
inductive Issued where
  | command (i : Instr)
  | illegal (c : Byte)
deriving DecidableEq, Repr

/-- The bytes of an issued command (R63, R68). -/
def Issued.bytes : Issued → List Byte
  | .command i => encode i
  | .illegal c => [c]

/-- An illegal opcode byte stands in no row of R67's table (R68). -/
def Issued.wellFormed : Issued → Bool
  | .command _ => true
  | .illegal c => opOf c == none

/-- A run (R179): the commands, with the transport's and the clock's answers, on an instance with the given parameters. -/
structure Run where
  params : Params
  commands : List Issued
  reads : List ReadAnswer
  writes : List WriteAnswer
  clock : List Word
deriving DecidableEq, Repr

/-- Where a run starts: the reset state (R170, R179), the commands at the port, the answers still to come. -/
def Run.start (r : Run) : State :=
  { State.reset with
    params := r.params
    port := r.commands.flatMap Issued.bytes
    env := { Env.reset with reads := r.reads, writes := r.writes, clock := r.clock } }

/-- `k` steps of the machine, stopping at a stop. -/
def runSteps : Nat → State → Host.Outcome State Fault Refusal
  | 0, s => .next s
  | k + 1, s =>
    match step s with
    | .next t => runSteps k t
    | .fault r => .fault r
    | .refused r => .refused r

/-- An event `(F, ok, t)` of the write history (R132). -/
structure ObservedWrite where
  frame : Frame
  ok : Bool
  t : Word
deriving DecidableEq, Repr

/-- What the write history shows of an event: not which prefix a failed write put on the wire (R132, R179). -/
def WriteEvent.observed (e : WriteEvent) : ObservedWrite := { frame := e.frame, ok := writeOk e.answer, t := e.t }

/-- What a run shows (R179): its responses, the SWFC's final state, and the write history. Nothing of the transport's
undelivered bytes, of a failed write's prefix, or of time. -/
structure Observation where
  responses : List Response
  swfc : Swfc
  writes : List ObservedWrite
deriving DecidableEq, Repr

/-- The observation of a run that has ended in `s` (R179). -/
def observe (s : State) : Observation :=
  { responses := s.responses, swfc := s.swfc, writes := s.writes.map WriteEvent.observed }

/-- The observation of a run that has ended within `k` steps, that is, whose last command has responded (R179); `none`
while it has not. A run for which this is `none` for every `k` hangs. -/
def Run.observation (r : Run) (k : Nat) : Option Observation :=
  match runSteps k r.start with
  | .next t => if t.responses.length = r.commands.length then some (observe t) else none
  | .fault _ => none
  | .refused _ => none

end Sys2Proof.Machine
end

