-- ==== Sys2Proof/WellFormed.lean ====
section
/-! DEFINITION. Which commands and which parameters are well formed. -/

namespace Sys2Proof

/-- A command is well formed when none of its operand values is reserved: only RDSR reserves any, the indexes
11..255 (R69). A reserved index still decodes and executes, responding `ILLEGAL` (R69; log 12). -/
def Instr.wellFormed : Instr → Bool
  | .rdsr idx => decide (idx.toNat ≤ 10)
  | .nop => true
  | .enc _ => true
  | .dec _ => true
  | .chk _ => true
  | .valb _ => true
  | .align => true
  | .rdfr => true
  | .rxb => true
  | .txb _ => true
  | .clrcnt => true
  | .srst => true

/-- The constraints R5 puts on the parameters: the two data bits lie at different positions, `RAW_CAP >= 4`,
`RAW_TAIL < RAW_CAP` (R5; 93 U7 writes `≤`, log 10) and `TX_GAP_MS < 2^31`. The host owes them (R172). -/
structure Params.Valid (p : Params) : Prop where
  posNe : p.posLo ≠ p.posHi
  capMin : 4 ≤ p.rawCap
  tailLt : p.rawTail < p.rawCap
  gapLt : p.txGapMs < 2 ^ 31

/-- `Params.Valid` as a check that evaluates. -/
def Params.valid (p : Params) : Bool :=
  decide (p.posLo ≠ p.posHi) && decide (4 ≤ p.rawCap) && decide (p.rawTail < p.rawCap) &&
    decide (p.txGapMs < 2147483648)

end Sys2Proof
end

