-- ==== Sys2Proof/Safety.lean ====
section
/-! DEFINITION. What the statements speak of: the valid wire bytes as the spec defines them, the responses a command may
give, and the invariant that every step keeps. -/

namespace Sys2Proof.Machine

/-- `VALID(w)` as R61 defines it: `w` stands somewhere in the encoding of some payload byte. -/
def WireByte (p : Params) (w : Byte) : Prop := ∃ b : Byte, w ∈ frameBytes (enc p b)

/-- The bytes a transport read's answer delivers (R44). -/
def readBytes : ReadAnswer → List Byte
  | .fail => []
  | .data n b => delivered n b

/-- The OK data length of each command (R67). -/
def okDataLength : Op → Nat
  | .nop => 0
  | .enc => 4
  | .dec => 1
  | .chk => 1
  | .valb => 1
  | .align => 1
  | .rdfr => 4
  | .rxb => 1
  | .txb => 0
  | .rdsr => 4
  | .clrcnt => 0
  | .srst => 0

/-- The statuses other than `OK` that each command may respond (R67). -/
def otherStatuses : Op → List Status
  | .nop => []
  | .enc => []
  | .dec => []
  | .chk => []
  | .valb => []
  | .align => []
  | .rdfr => [.noframe, .rxerr]
  | .rxb => [.noframe, .rxerr]
  | .txb => [.txerr]
  | .rdsr => [.illegal]
  | .clrcnt => []
  | .srst => []

/-- A response of R65's form: 0, 1 or 4 data bytes, and none unless the status is `OK`. -/
def Response.Formed (r : Response) : Prop :=
  (r.data.length = 0 ∨ r.data.length = 1 ∨ r.data.length = 4) ∧ (r.status ≠ .ok → r.data = [])

/-- Whenever the gap is armed, `TX_READY_AT` is the last write's clock sample plus `TX_GAP_MS` (R131, R132). -/
def TxLinked (s : State) : Prop :=
  s.swfc.txArmed = true →
    ∃ e : WriteEvent, s.writes.getLast? = some e ∧ s.swfc.txReadyAt = e.t + BitVec.ofNat 32 s.params.txGapMs

/-- The invariant every step keeps: the parameters meet R5's constraints, RAW holds at most 7 bytes (R29), the gap's
deadline belongs to the last write (R131), every response has R65's form, and every frame written is an encoding (R131). -/
structure Inv (s : State) : Prop where
  params : s.params.Valid
  rawBounded : s.swfc.raw.length ≤ 7
  txLinked : TxLinked s
  formed : ∀ r ∈ s.responses, r.Formed
  encoded : ∀ e ∈ s.writes, ∃ b : Byte, e.frame = enc s.params b

/-- Two states that differ in nothing but the counters `CNT[0..7]`. -/
def SameButCounters (s t : State) : Prop := t = { s with swfc := { s.swfc with cnt := t.swfc.cnt } }

end Sys2Proof.Machine
end

