-- ==== Sys2Proof/Certificates/Slice0/Obligations.lean ====
section
/-! DEFINITION. The statements about the single-wire frame codec, for the provers. Each docstring names the rule of spec/ it
formalises. Nothing is proved here. -/

open Sys2Proof Sys2Proof.Machine

/-- R170, R171: at power-on and by SRST every component takes its reset value, every status register then reads 0, no
transport call and no clock sample is made, and the parameters stay. -/
def Obligations.ResetPutsEveryComponentToItsResetValue : Prop :=
  State.reset.swfc =
      { raw := []
        cnt := { frames := 0, filter := 0, resync := 0, trunc := 0, purge := 0, tx := 0, txerr := 0, rxerr := 0 }
        txArmed := false
        txReadyAt := 0 } ∧
    (∀ idx : Byte, idx.toNat ≤ 10 → statusReg State.reset.swfc idx = some 0) ∧
    State.reset.writes = [] ∧ State.reset.env.lastSample = none ∧
    ∀ s : State, ∃ t, exec .srst s = .next t ∧ t.swfc = State.reset.swfc ∧ t.params = s.params ∧ t.env = s.env ∧
      t.writes = s.writes

/-- R140, R142, R143, with their encodings: NOP changes nothing, CLRCNT clears the counters and nothing else, SRST puts
the SWFC in its reset state; each responds OK without data. -/
def Obligations.ControlCommandsDoExactlyTheirEffect : Prop :=
  ∀ (s : State) (rest : List Byte),
    decode (0b00000000#8 :: rest) = .ok (.nop, rest) ∧
    exec .nop s = .next { s with responses := s.responses ++ [⟨.ok, []⟩] } ∧
    decode (0b00110001#8 :: rest) = .ok (.clrcnt, rest) ∧
    exec .clrcnt s = .next { s with
      swfc := { s.swfc with
        cnt := { frames := 0, filter := 0, resync := 0, trunc := 0, purge := 0, tx := 0, txerr := 0, rxerr := 0 } }
      responses := s.responses ++ [⟨.ok, []⟩] } ∧
    decode (0b11110000#8 :: rest) = .ok (.srst, rest) ∧
    exec .srst s = .next { s with
      swfc :=
        { raw := []
          cnt := { frames := 0, filter := 0, resync := 0, trunc := 0, purge := 0, tx := 0, txerr := 0, rxerr := 0 }
          txArmed := false
          txReadyAt := 0 }
      responses := s.responses ++ [⟨.ok, []⟩] }

/-- R9: a step takes the command at the front of the port and is exactly that command's execution, on the machine whose
port holds the bytes after it. -/
def Obligations.StepRunsTheDecodedCommand : Prop :=
  ∀ (s : State) (i : Instr) (rest : List Byte),
    (decode s.port = .ok (i, rest) → step s = exec i { s with port := rest }) ∧
    (s.port = encode i ++ rest → step s = exec i { s with port := rest })

/-- R68: an opcode byte outside R67's table is one byte long, responds ILLEGAL without data and changes nothing; there are
244 such bytes. -/
def Obligations.IllegalOpcodeRespondsIllegal : Prop :=
  (∀ (s : State) (c : Byte) (cs : List Byte), s.port = c :: cs →
    c ∉ ([0x00, 0x01, 0x02, 0x03, 0x04, 0x10, 0x11, 0x12, 0x20, 0x30, 0x31, 0xF0] : List Byte) →
    step s = .next { s with port := cs, responses := s.responses ++ [⟨.illegal, []⟩] }) ∧
  ((List.finRange 256).filter fun k =>
    decide ((BitVec.ofFin k : Byte) ∉
      ([0x00, 0x01, 0x02, 0x03, 0x04, 0x10, 0x11, 0x12, 0x20, 0x30, 0x31, 0xF0] : List Byte))).length = 244

/-- The model's choice for a port with no whole command (log 5, DESIGN CHOICE): the SWFC waits, unchanged. -/
def Obligations.PortWithoutAWholeCommandWaits : Prop :=
  ∀ s : State,
    (s.port = [] → step s = .next s) ∧
    (∀ (c : Byte) (cs : List Byte), s.port = c :: cs →
      c ∈ ([0x01, 0x04, 0x20, 0x30] : List Byte) → cs.length < 1 → step s = .next s) ∧
    (∀ (c : Byte) (cs : List Byte), s.port = c :: cs → c ∈ ([0x02, 0x03] : List Byte) → cs.length < 4 →
      step s = .next s)

/-- R67: one word of each row, written from its pattern string, decodes to its command. -/
def Obligations.TableWordsDecodeToTheirCommands : Prop :=
  decode [0b00000000#8] = .ok (.nop, []) ∧
  decode [0b00000001#8, 0x6F] = .ok (.enc 0x6F, []) ∧
  decode [0b00000010#8, 0xFF, 0xFE, 0xFB, 0xDF] = .ok (.dec ⟨0xFF, 0xFE, 0xFB, 0xDF⟩, []) ∧
  decode [0b00000011#8, 0xDB, 0xDF, 0xFF, 0x00] = .ok (.chk ⟨0xDB, 0xDF, 0xFF, 0x00⟩, []) ∧
  decode [0b00000100#8, 0xFB] = .ok (.valb 0xFB, []) ∧
  decode [0b00010000#8] = .ok (.align, []) ∧
  decode [0b00010001#8] = .ok (.rdfr, []) ∧
  decode [0b00010010#8] = .ok (.rxb, []) ∧
  decode [0b00100000#8, 0x6B] = .ok (.txb 0x6B, []) ∧
  decode [0b00110000#8, 0x0A] = .ok (.rdsr 0x0A, []) ∧
  decode [0b00110001#8] = .ok (.clrcnt, []) ∧
  decode [0b11110000#8] = .ok (.srst, [])

/-- R63, R64: decoding the bytes of any command, whatever bytes follow, gives back that command with every operand, and
those following bytes; so the bytes of a sequence of commands are the bytes of no other sequence. -/
def Obligations.DecodingAnEncodedCommandGivesItBack : Prop :=
  (∀ (i : Instr) (rest : List Byte), decode (encode i ++ rest) = .ok (i, rest)) ∧
    ∀ is js : List Instr, is.flatMap encode = js.flatMap encode → is = js

/-- R63: bytes that decode to a command are that command's encoding followed by the rest: each command has one encoding. -/
def Obligations.DecodedBytesAreTheEncoding : Prop :=
  ∀ (bs : List Byte) (i : Instr) (rest : List Byte), decode bs = .ok (i, rest) → bs = encode i ++ rest

/-- R70: the opcode byte alone fixes the length: 2 for 01, 04, 20 and 30, 5 for 02 and 03, 1 for every other value, illegal
values included; a command is taken exactly when that many bytes are there. -/
def Obligations.OpcodeByteAloneFixesTheLength : Prop :=
  ∀ (c : Byte) (cs : List Byte) (n : Nat),
    n = (if c ∈ ([0x01, 0x04, 0x20, 0x30] : List Byte) then 2
      else if c ∈ ([0x02, 0x03] : List Byte) then 5 else 1) →
    commandLength c = n ∧
    ((c :: cs).length < n → decode (c :: cs) = .error .incomplete) ∧
    (n ≤ (c :: cs).length →
      (∃ i, decode (c :: cs) = .ok (i, (c :: cs).drop n)) ∨ (n = 1 ∧ decode (c :: cs) = .error (.illegalOpcode c)))

/-- R69: RDSR's indexes 11..255 are the only reserved operand values: the command, 2 bytes long, responds ILLEGAL without
data and changes nothing; every other command, with every operand, responds another status or holds. -/
def Obligations.OnlyRdsrIndexesAreReserved : Prop :=
  (∀ (s : State) (idx : Byte) (rest : List Byte), 11 ≤ idx.toNat → s.port = 0x30 :: idx :: rest →
    step s = .next { s with port := rest, responses := s.responses ++ [⟨.illegal, []⟩] }) ∧
  (∀ (i : Instr) (s : State), (∀ idx, i = .rdsr idx → idx.toNat ≤ 10) → ∃ t, exec i s = .next t ∧
    ∀ r, t.responses = s.responses ++ [r] → r.status ≠ .illegal) ∧
  ∀ i : Instr, i.wellFormed = true ↔ ∀ idx, i = .rdsr idx → idx.toNat ≤ 10

/-- R80, R85: ENC responds OK with the 4 bytes of the frame and changes nothing else; bit `CODEC_POS_LO` of frame byte `i`
is payload bit `2i`, bit `CODEC_POS_HI` is payload bit `2i+1`, every other bit is the base's. -/
def Obligations.EncInjectsThePayloadBits : Prop :=
  ∀ (s : State) (b : Byte) (rest : List Byte), s.params.posLo ≠ s.params.posHi →
    decode (0b00000001#8 :: b :: rest) = .ok (.enc b, rest) ∧
    ∃ bytes : List Byte, bytes.length = 4 ∧
      exec (.enc b) s = .next { s with responses := s.responses ++ [⟨.ok, bytes⟩] } ∧
      ∀ (i : Nat) (w : Byte), bytes[i]? = some w →
        w.getLsbD s.params.posLo.val = b.getLsbD (2 * i) ∧
        w.getLsbD s.params.posHi.val = b.getLsbD (2 * i + 1) ∧
        ∀ j < 8, j ≠ s.params.posLo.val → j ≠ s.params.posHi.val → w.getLsbD j = s.params.base.getLsbD j

/-- R81, R86: DEC responds OK with one byte for every frame, valid or not, and changes nothing else; its bits `2i` and
`2i+1` are bits `CODEC_POS_LO` and `CODEC_POS_HI` of frame byte `i`, and no other bit of the frame matters. -/
def Obligations.DecExtractsThePayloadBits : Prop :=
  ∀ (s : State) (f : Frame) (rest : List Byte),
    decode (0b00000010#8 :: f.f0 :: f.f1 :: f.f2 :: f.f3 :: rest) = .ok (.dec f, rest) ∧
    ∃ d : Byte, exec (.dec f) s = .next { s with responses := s.responses ++ [⟨.ok, [d]⟩] } ∧
      ∀ (i : Nat) (w : Byte), [f.f0, f.f1, f.f2, f.f3][i]? = some w →
        d.getLsbD (2 * i) = w.getLsbD s.params.posLo.val ∧ d.getLsbD (2 * i + 1) = w.getLsbD s.params.posHi.val

/-- R82: `DEC(ENC(b)) == b` for every byte, for every parameter choice with two different bit positions. -/
def Obligations.DecodingAnEncodedByteGivesItBack : Prop :=
  ∀ (p : Params) (b : Byte), p.posLo ≠ p.posHi → dec p (enc p b) = b

/-- R83: the round-trip test passes exactly on the frames whose 4 bytes are all valid wire bytes. -/
def Obligations.RoundTripTestIsValidityOfAllFourBytes : Prop :=
  ∀ (p : Params) (f : Frame), (rtOk p f = true ↔ enc p (dec p f) = f) ∧
    (rtOk p f = true ↔ WireByte p f.f0 ∧ WireByte p f.f1 ∧ WireByte p f.f2 ∧ WireByte p f.f3)

/-- R84: ENC is injective, its image is the set of the 256 frames whose bytes are all valid, and every such frame is the
encoding of what it decodes to, and of nothing else. -/
def Obligations.EncIsABijectionOntoTheValidFrames : Prop :=
  ∀ p : Params, p.posLo ≠ p.posHi →
    Function.Injective (enc p) ∧
    (∀ f : Frame, (∃ b, enc p b = f) ↔ WireByte p f.f0 ∧ WireByte p f.f1 ∧ WireByte p f.f2 ∧ WireByte p f.f3) ∧
    (Set.range (enc p)).ncard = 256 ∧
    ∀ f : Frame, rtOk p f = true → enc p (dec p f) = f ∧ ∀ b, enc p b = f → b = dec p f

/-- R87: CHK responds OK with 01 exactly when the frame re-encodes to itself, that is, when it is the encoding of some
byte; else with 00; and it changes nothing else. -/
def Obligations.ChkTellsTheEncodedFrames : Prop :=
  ∀ (s : State) (f : Frame) (rest : List Byte),
    decode (0b00000011#8 :: f.f0 :: f.f1 :: f.f2 :: f.f3 :: rest) = .ok (.chk f, rest) ∧
    (enc s.params (dec s.params f) = f ↔ ∃ b, enc s.params b = f) ∧
    ((∃ b, enc s.params b = f) → exec (.chk f) s = .next { s with responses := s.responses ++ [⟨.ok, [0x01]⟩] }) ∧
    ((¬ ∃ b, enc s.params b = f) → exec (.chk f) s = .next { s with responses := s.responses ++ [⟨.ok, [0x00]⟩] })

/-- R61, R88: VALB responds OK with 01 exactly on the bytes that stand in some encoding, else 00, and changes nothing
else. -/
def Obligations.ValbTellsTheBytesOfEncodings : Prop :=
  ∀ (s : State) (w : Byte) (rest : List Byte),
    decode (0b00000100#8 :: w :: rest) = .ok (.valb w, rest) ∧
    (WireByte s.params w → exec (.valb w) s = .next { s with responses := s.responses ++ [⟨.ok, [0x01]⟩] }) ∧
    (¬ WireByte s.params w → exec (.valb w) s = .next { s with responses := s.responses ++ [⟨.ok, [0x00]⟩] })

/-- R61: there are exactly 4 valid wire bytes for every choice of two different positions; with the default parameters
they are DB, DF, FB and FF; each is valid at all 4 frame positions; a byte is valid when its bits outside the mask are the
base's. -/
def Obligations.ExactlyFourBytesAreValid : Prop :=
  (∀ (p : Params) (w : Byte), WireByte p w ↔ w &&& ~~~(codecMask p) = p.base &&& ~~~(codecMask p)) ∧
  (∀ p : Params, p.posLo ≠ p.posHi → {w : Byte | WireByte p w}.ncard = 4) ∧
  (∀ w : Byte, WireByte Params.default w ↔ w = 0xDB ∨ w = 0xDF ∨ w = 0xFB ∨ w = 0xFF) ∧
  ∀ (p : Params) (w : Byte) (i : Nat), i < 4 → WireByte p w → ∃ b, (frameBytes (enc p b))[i]? = some w

/-- R100, R104: ALIGN, by the way the scan goes: an invalid front byte is dropped and counted in CNT_FILTER and the scan
repeats; with fewer than 4 bytes and no invalid front byte it answers 00; on a front frame that re-encodes to itself it
answers 01; else the leading byte is dropped and counted in CNT_RESYNC and the scan repeats. -/
def Obligations.AlignScansFromTheFront : Prop :=
  (∀ rest : List Byte, decode (0b00010000#8 :: rest) = .ok (.align, rest)) ∧ ∀ s : State,
    (∀ w rest, s.swfc.raw = w :: rest → ¬ WireByte s.params w →
      exec .align s = exec .align { s with swfc := { s.swfc with
        raw := rest, cnt := { s.swfc.cnt with filter := s.swfc.cnt.filter + 1 } } }) ∧
    (s.swfc.raw.length < 4 → (∀ w rest, s.swfc.raw = w :: rest → WireByte s.params w) →
      exec .align s = .next { s with responses := s.responses ++ [⟨.ok, [0x00]⟩] }) ∧
    (∀ w0 w1 w2 w3 rest, s.swfc.raw = w0 :: w1 :: w2 :: w3 :: rest → WireByte s.params w0 →
      (enc s.params (dec s.params ⟨w0, w1, w2, w3⟩) = ⟨w0, w1, w2, w3⟩ →
        exec .align s = .next { s with responses := s.responses ++ [⟨.ok, [0x01]⟩] }) ∧
      (enc s.params (dec s.params ⟨w0, w1, w2, w3⟩) ≠ ⟨w0, w1, w2, w3⟩ →
        exec .align s = exec .align { s with swfc := { s.swfc with
          raw := w1 :: w2 :: w3 :: rest, cnt := { s.swfc.cnt with resync := s.swfc.cnt.resync + 1 } } }))

/-- R101, R104: ALIGN completes in every state; it answers 01 with 4 valid bytes that pass the round-trip test in front, or
00 with at most 3 bytes and no invalid front byte; RAW becomes a suffix of what it was; nothing but RAW, CNT_FILTER and
CNT_RESYNC changes; a second ALIGN removes nothing and answers the same. -/
def Obligations.AlignEndsAlignedOrShort : Prop :=
  ∀ s : State, ∃ (a : Byte) (t : State), exec .align s = .next t ∧
    t = { s with
      swfc := { s.swfc with
        raw := t.swfc.raw
        cnt := { s.swfc.cnt with filter := t.swfc.cnt.filter, resync := t.swfc.cnt.resync } }
      responses := s.responses ++ [⟨.ok, [a]⟩] } ∧
    t.swfc.raw <:+ s.swfc.raw ∧
    ((a = 0x01 ∧ ∃ f rest, t.swfc.raw = frameBytes f ++ rest ∧ rtOk s.params f = true ∧
        WireByte s.params f.f0 ∧ WireByte s.params f.f1 ∧ WireByte s.params f.f2 ∧ WireByte s.params f.f3) ∨
      (a = 0x00 ∧ t.swfc.raw.length ≤ 3 ∧ ∀ w rest, t.swfc.raw = w :: rest → WireByte s.params w)) ∧
    exec .align t = .next { t with responses := t.responses ++ [⟨.ok, [a]⟩] }

/-- R102: the counters record every removal: if ALIGN removes `r` bytes, CNT_FILTER and CNT_RESYNC together grow by `r`
modulo 2^32; and it removes at least one byte whenever the front byte is invalid or the trial frame fails. -/
def Obligations.AlignCountsEveryRemovedByte : Prop :=
  ∀ s t : State, exec .align s = .next t →
    t.swfc.raw.length ≤ s.swfc.raw.length ∧
    t.swfc.cnt.filter + t.swfc.cnt.resync =
      s.swfc.cnt.filter + s.swfc.cnt.resync + BitVec.ofNat 32 (s.swfc.raw.length - t.swfc.raw.length) ∧
    (∀ w rest, s.swfc.raw = w :: rest → ¬ WireByte s.params w → t.swfc.raw.length < s.swfc.raw.length) ∧
    (∀ f rest, s.swfc.raw = frameBytes f ++ rest → rtOk s.params f = false →
      t.swfc.raw.length < s.swfc.raw.length)

/-- R106: RDFR first aligns as ALIGN does (to `t`). Aligned, it returns the front frame without a read. Else it makes one
read: a failure is counted and responds RXERR; data is cut to 4 bytes (an over-long report counted), appended (a purge
counted), aligned as ALIGN does (to `v`), and then the front frame is returned, or NOFRAME. Nothing else changes. -/
def Obligations.RdfrAlignsReadsOnceAndExtracts : Prop :=
  ∀ (s t : State) (rest : List Byte), exec .align s = .next t →
    decode (0b00010001#8 :: rest) = .ok (.rdfr, rest) ∧
    (∀ (f : Frame) (raw : List Byte), t.swfc.raw = frameBytes f ++ raw →
      exec .rdfr s = .next { s with
        swfc := { t.swfc with raw := raw, cnt := { t.swfc.cnt with frames := t.swfc.cnt.frames + 1 } }
        responses := s.responses ++ [⟨.ok, frameBytes f⟩] }) ∧
    (t.swfc.raw.length < 4 → ∀ reads, s.env.reads = .fail :: reads →
      exec .rdfr s = .next { s with
        swfc := { t.swfc with cnt := { t.swfc.cnt with rxerr := t.swfc.cnt.rxerr + 1 } }
        env := { s.env with reads := reads }
        responses := s.responses ++ [⟨.rxerr, []⟩] }) ∧
    (t.swfc.raw.length < 4 → ∀ n b reads, s.env.reads = .data n b :: reads → ∀ (all : List Byte) (u v : State),
      all = t.swfc.raw ++ [b.f0, b.f1, b.f2, b.f3].take (min n 4) →
      u = { s with
        swfc := { t.swfc with
          raw := if s.params.rawCap < all.length then all.drop (all.length - s.params.rawTail) else all
          cnt := { t.swfc.cnt with
            trunc := if 4 < n then t.swfc.cnt.trunc + 1 else t.swfc.cnt.trunc
            purge := if s.params.rawCap < all.length then t.swfc.cnt.purge + 1 else t.swfc.cnt.purge } }
        env := { s.env with reads := reads } } →
      exec .align u = .next v →
      (∀ (f : Frame) (raw : List Byte), v.swfc.raw = frameBytes f ++ raw →
        exec .rdfr s = .next { u with
          swfc := { v.swfc with raw := raw, cnt := { v.swfc.cnt with frames := v.swfc.cnt.frames + 1 } }
          responses := s.responses ++ [⟨.ok, frameBytes f⟩] }) ∧
      (v.swfc.raw.length < 4 →
        exec .rdfr s = .next { u with swfc := v.swfc, responses := s.responses ++ [⟨.noframe, []⟩] }))

/-- The model's choice for a transport answer that the environment does not list (log 2, DESIGN CHOICE): RDFR and RXB go on
with some answer, as if it had been listed. -/
def Obligations.UnlistedReadIsSomeAnswer : Prop :=
  ∀ s t : State, exec .align s = .next t → t.swfc.raw.length < 4 → s.env.reads = [] →
    ∃ r : ReadAnswer,
      exec .rdfr s = exec .rdfr { s with env := { s.env with reads := [r], draws := s.env.draws + 1 } } ∧
      exec .rxb s = exec .rxb { s with env := { s.env with reads := [r], draws := s.env.draws + 1 } }

/-- R107: RXB completes in every state exactly as RDFR does, but that an OK response carries the one byte whose encoding
RDFR would have returned. -/
def Obligations.RxbIsRdfrDecoded : Prop :=
  ∀ (s : State) (rest : List Byte), s.params.posLo ≠ s.params.posHi →
    decode (0b00010010#8 :: rest) = .ok (.rxb, rest) ∧
    ∃ (t : State) (r : Response), exec .rdfr s = .next t ∧ t.responses = s.responses ++ [r] ∧
      ((r.status = .ok ∧ ∃ b : Byte, r.data = frameBytes (enc s.params b) ∧
          (∀ b', frameBytes (enc s.params b') = r.data → b' = b) ∧
          exec .rxb s = .next { t with responses := s.responses ++ [⟨.ok, [b]⟩] }) ∨
        ((r.status = .noframe ∨ r.status = .rxerr) ∧ r.data = [] ∧ exec .rxb s = .next t))

/-- R109: every frame that RDFR returns with OK satisfies the round-trip test, so it is in the image of ENC. -/
def Obligations.RdfrReturnsOnlyEncodedFrames : Prop :=
  ∀ (s t : State) (r : Response), exec .rdfr s = .next t → t.responses = s.responses ++ [r] → r.status = .ok →
    ∃ f : Frame, r.data = frameBytes f ∧ rtOk s.params f = true ∧ ∃ b, enc s.params b = f

/-- R110, for a cap that no append reaches (R176): every byte that RDFR had or read leaves RAW as a dropped byte, counted in
CNT_FILTER or CNT_RESYNC, or in the returned frame, or is still there, in this order. -/
def Obligations.RdfrConservesTheBytes : Prop :=
  ∀ (s t : State) (r : ReadAnswer) (reads : List ReadAnswer), 7 ≤ s.params.rawCap → s.env.reads = r :: reads →
    exec .rdfr s = .next t →
    ∃ dropped frame : List Byte,
      ((t.env.reads = r :: reads ∧ s.swfc.raw = dropped ++ frame ++ t.swfc.raw) ∨
        (t.env.reads = reads ∧ s.swfc.raw ++ readBytes r = dropped ++ frame ++ t.swfc.raw)) ∧
      t.swfc.cnt.filter + t.swfc.cnt.resync =
        s.swfc.cnt.filter + s.swfc.cnt.resync + BitVec.ofNat 32 dropped.length ∧
      ((frame.length = 4 ∧ t.responses = s.responses ++ [⟨.ok, frame⟩]) ∨
        (frame = [] ∧ (t.responses = s.responses ++ [⟨.noframe, []⟩] ∨ t.responses = s.responses ++ [⟨.rxerr, []⟩])))

/-- R44: the bytes of a read's buffer at indexes the report does not reach carry no meaning: they influence neither RDFR
nor RXB. -/
def Obligations.UndeliveredBytesDoNotMatter : Prop :=
  ∀ (s t : State) (n : Nat) (b b' : Frame) (reads : List ReadAnswer),
    exec .align s = .next t → t.swfc.raw.length < 4 →
    (∀ i < n, [b.f0, b.f1, b.f2, b.f3][i]? = [b'.f0, b'.f1, b'.f2, b'.f3][i]?) →
    exec .rdfr { s with env := { s.env with reads := .data n b :: reads } } =
        exec .rdfr { s with env := { s.env with reads := .data n b' :: reads } } ∧
      exec .rxb { s with env := { s.env with reads := .data n b :: reads } } =
        exec .rxb { s with env := { s.env with reads := .data n b' :: reads } }

/-- R103, R174: any 4 bytes cut out of two neighbouring frames pass as a frame: RDFR returns them with OK and no counter
but CNT_FRAMES changes, so a phase error goes undetected. -/
def Obligations.MisalignedFramesGoUndetected : Prop :=
  ∀ (s : State) (b1 b2 : Byte) (k : Nat), k ≤ 3 →
    s.swfc.raw = (frameBytes (enc s.params b1) ++ frameBytes (enc s.params b2)).drop k →
    exec .rdfr s = .next { s with
      swfc := { s.swfc with
        raw := s.swfc.raw.drop 4, cnt := { s.swfc.cnt with frames := s.swfc.cnt.frames + 1 } }
      responses := s.responses ++ [⟨.ok, s.swfc.raw.take 4⟩] }

/-- R108, for a cap that no append reaches (R176) and a transport that does not fail: when the transport delivers invalid
bytes `g` and then the encodings of `ps`, in any chunking, then after one RXB for each of its answers the OK responses are
exactly `ps` in order, every other response is NOFRAME, CNT_FILTER has grown by exactly the number of the invalid bytes,
CNT_RESYNC not at all, and RAW is empty again. -/
def Obligations.GarbagePrefixIsSkippedExactly : Prop :=
  ∀ (s : State) (g ps tail : List Byte), s.params.Valid → 7 ≤ s.params.rawCap → s.swfc.raw = [] →
    (∀ w ∈ g, ¬ WireByte s.params w) → (∀ r ∈ s.env.reads, r ≠ .fail) →
    s.env.reads.flatMap readBytes = g ++ ps.flatMap (fun b => frameBytes (enc s.params b)) →
    s.port = List.replicate s.env.reads.length 0x12 ++ tail →
    ∃ (t : State) (rs : List Response), runSteps s.env.reads.length s = .next t ∧
      t.port = tail ∧ t.swfc.raw = [] ∧ t.responses = s.responses ++ rs ∧
      rs.filter (fun r => decide (r.status = .ok)) = ps.map (fun b => ⟨.ok, [b]⟩) ∧
      (∀ r ∈ rs, r.status = .ok ∨ r = ⟨.noframe, []⟩) ∧
      t.swfc.cnt.filter = s.swfc.cnt.filter + BitVec.ofNat 32 g.length ∧
      t.swfc.cnt.resync = s.swfc.cnt.resync

/-- R131, where a TXB's sample `t` (R157) does not wait (R130): one write of the encoded frame, the gap armed whatever the
transport answers, CNT_TX and OK on success, CNT_TXERR and TXERR on failure; nothing else changes. How a draw gives the
sample is the model's choice (log 3). -/
def Obligations.TxbTransmitsWhenTheGapHasPassed : Prop :=
  ∀ (s : State) (b : Byte) (rest : List Byte) (d t : Word) (clock : List Word) (a : WriteAnswer)
    (answers : List WriteAnswer),
    s.env.clock = d :: clock → s.env.writes = a :: answers →
    (s.env.lastSample = none → t = d) →
    (∀ t0, s.env.lastSample = some t0 → t = t0 + BitVec.ofNat 32 (d.toNat % 2 ^ 31)) →
    ¬ (s.swfc.txArmed = true ∧ 1 ≤ (s.swfc.txReadyAt - t).toNat ∧ (s.swfc.txReadyAt - t).toNat ≤ s.params.txGapMs) →
    decode (0b00100000#8 :: b :: rest) = .ok (.txb b, rest) ∧
    (a = .success → exec (.txb b) s = .next { s with
      swfc := { s.swfc with
        txArmed := true
        txReadyAt := t + BitVec.ofNat 32 s.params.txGapMs
        cnt := { s.swfc.cnt with tx := s.swfc.cnt.tx + 1 } }
      env := { s.env with clock := clock, lastSample := some t, writes := answers }
      writes := s.writes ++ [⟨enc s.params b, .success, t⟩]
      responses := s.responses ++ [⟨.ok, []⟩] }) ∧
    (∀ sent, a = .failure sent → exec (.txb b) s = .next { s with
      swfc := { s.swfc with
        txArmed := true
        txReadyAt := t + BitVec.ofNat 32 s.params.txGapMs
        cnt := { s.swfc.cnt with txerr := s.swfc.cnt.txerr + 1 } }
      env := { s.env with clock := clock, lastSample := some t, writes := answers }
      writes := s.writes ++ [⟨enc s.params b, .failure sent, t⟩]
      responses := s.responses ++ [⟨.txerr, []⟩] })

/-- R130: a TXB whose sample waits takes no effect: no state change, no transport call, no response; the clock has been
sampled, and the TXB is still the next command (log 6: one sample a step). -/
def Obligations.TxbHoldsWithoutEffect : Prop :=
  ∀ (s : State) (b : Byte) (rest : List Byte) (d t : Word) (clock : List Word),
    s.env.clock = d :: clock → s.port = 0x20 :: b :: rest →
    (s.env.lastSample = none → t = d) →
    (∀ t0, s.env.lastSample = some t0 → t = t0 + BitVec.ofNat 32 (d.toNat % 2 ^ 31)) →
    s.swfc.txArmed = true → 1 ≤ (s.swfc.txReadyAt - t).toNat → (s.swfc.txReadyAt - t).toNat ≤ s.params.txGapMs →
    step s = .next { s with env := { s.env with clock := clock, lastSample := some t } }

/-- The model's choice for samples and write answers that the environment does not list (log 2, DESIGN CHOICE): TXB goes on
with some draw, and some answer, as if listed. -/
def Obligations.UnlistedTxbInputsAreSomeInputs : Prop :=
  ∀ (s : State) (b : Byte),
    (s.env.clock = [] → ∃ d : Word,
      exec (.txb b) s = exec (.txb b) { s with env := { s.env with clock := [d], draws := s.env.draws + 1 } }) ∧
    (s.env.clock ≠ [] → s.env.writes = [] → (∀ t, exec (.txb b) s = .next t → t.writes ≠ s.writes) →
      ∃ a : WriteAnswer,
      exec (.txb b) s = exec (.txb b) { s with env := { s.env with writes := [a], draws := s.env.draws + 1 } })

/-- R130, R172: a hold ends. From a TXB that waits for a gap that began no earlier than `TX_GAP_MS` before the last sample,
whatever the next samples are, as soon as the clock has advanced by what was missing the TXB has written and responded.
(One sample a step: log 6. The next samples are given by draws, each cut to 31 bits: log 3.) -/
def Obligations.EveryHoldEndsWhenTheClockAdvances : Prop :=
  ∀ (s : State) (b : Byte) (rest : List Byte) (t0 : Word) (ds more : List Word), s.params.Valid →
    s.port = 0x20 :: b :: rest → s.swfc.txArmed = true → s.env.lastSample = some t0 →
    (s.swfc.txReadyAt - t0).toNat ≤ s.params.txGapMs → s.env.clock = ds ++ more → ds ≠ [] →
    (s.swfc.txReadyAt - t0).toNat ≤ (ds.map fun d => d.toNat % 2 ^ 31).sum →
    ∃ (k : Nat) (t : State) (a : WriteAnswer) (w : Word), k ≤ ds.length ∧ runSteps k s = .next t ∧ t.port = rest ∧
      t.writes = s.writes ++ [⟨enc s.params b, a, w⟩] ∧
      (t.responses = s.responses ++ [⟨.ok, []⟩] ∨ t.responses = s.responses ++ [⟨.txerr, []⟩])

/-- R130: the waiting condition is the negation of AFTER (R157) as long as the time since the previous write stays below
`2^31 + TX_GAP_MS` ms. -/
def Obligations.WaitingAgreesWithAfterInTheNormalRange : Prop :=
  ∀ (p : Params) (m : Swfc) (t0 t : Word), p.Valid → m.txArmed = true →
    m.txReadyAt = t0 + BitVec.ofNat 32 p.txGapMs → (t - t0).toNat < 2 ^ 31 + p.txGapMs →
    (txWait p m t = false ↔ after t m.txReadyAt = true)

/-- R132: a write made while the gap is armed lies at least `TX_GAP_MS` after the write before it, modulo 2^32. -/
def Obligations.ConsecutiveWritesKeepTheGap : Prop :=
  ∀ (s t : State) (e1 : WriteEvent), Inv s → s.swfc.txArmed = true → s.writes.getLast? = some e1 →
    step s = .next t → t.writes ≠ s.writes →
    ∃ e2 : WriteEvent, t.writes = s.writes ++ [e2] ∧ s.params.txGapMs ≤ (e2.t - e1.t).toNat

/-- R173 b: the first TXB after an SRST does not hold: it writes. -/
def Obligations.TxbAfterResetNeverHolds : Prop :=
  ∀ (s t : State) (b : Byte), exec .srst s = .next t → ∃ (u : State) (e : WriteEvent),
    exec (.txb b) t = .next u ∧ u.writes = t.writes ++ [e] ∧ e.frame = enc s.params b ∧ u.port = t.port

/-- R157: successive clock samples are monotonic modulo 2^32 (by the model's form of a draw, log 3), and no command but TXB
samples the clock. -/
def Obligations.ClockSamplesAreMonotonicAndOnlyTxbs : Prop :=
  ∀ (i : Instr) (s t : State), exec i s = .next t →
    ((∀ b, i ≠ .txb b) → t.env.lastSample = s.env.lastSample ∧ t.env.clock = s.env.clock) ∧
    (∀ b, i = .txb b → ∃ t1, t.env.lastSample = some t1 ∧
      ∀ t0, s.env.lastSample = some t0 → (t1 - t0).toNat < 2 ^ 31)

/-- R45, R132: a successful event contributes the 4 bytes of its frame in index order, a failed one a prefix, and every
prefix is some failed event's. -/
def Obligations.WriteEventsEmitTheFrameOrAPrefix : Prop :=
  ∀ (f : Frame) (t : Word),
    wireBytes ⟨f, .success, t⟩ = [f.f0, f.f1, f.f2, f.f3] ∧
    (∀ sent, wireBytes ⟨f, .failure sent, t⟩ <+: [f.f0, f.f1, f.f2, f.f3]) ∧
    ∀ bytes, bytes <+: [f.f0, f.f1, f.f2, f.f3] → ∃ sent, wireBytes ⟨f, .failure sent, t⟩ = bytes

/-- R141: RDSR responds OK with the register's 32-bit value, least significant byte first, for indexes 0..10, ILLEGAL
without data for 11..255, and changes nothing else. -/
def Obligations.RdsrReturnsTheNamedRegister : Prop :=
  ∀ (s : State) (idx : Byte) (rest : List Byte),
    decode (0b00110000#8 :: idx :: rest) = .ok (.rdsr idx, rest) ∧
    (idx.toNat ≤ 10 → ∃ b0 b1 b2 b3 : Byte,
      exec (.rdsr idx) s = .next { s with responses := s.responses ++ [⟨.ok, [b0, b1, b2, b3]⟩] } ∧
      [s.swfc.cnt.frames.toNat, s.swfc.cnt.filter.toNat, s.swfc.cnt.resync.toNat, s.swfc.cnt.trunc.toNat,
        s.swfc.cnt.purge.toNat, s.swfc.cnt.tx.toNat, s.swfc.cnt.txerr.toNat, s.swfc.cnt.rxerr.toNat,
        s.swfc.raw.length % 2 ^ 32, s.swfc.txReadyAt.toNat, if s.swfc.txArmed then 1 else 0][idx.toNat]? =
          some (b0.toNat + 256 * b1.toNat + 65536 * b2.toNat + 16777216 * b3.toNat)) ∧
    (11 ≤ idx.toNat → exec (.rdsr idx) s = .next { s with responses := s.responses ++ [⟨.illegal, []⟩] })

/-- R85 to R88, R140, R141: NOP, ENC, DEC, CHK, VALB and RDSR change nothing but that they respond. -/
def Obligations.PureCommandsChangeNothing : Prop :=
  ∀ (i : Instr) (s t : State), i.op ∈ [Op.nop, Op.enc, Op.dec, Op.chk, Op.valb, Op.rdsr] → exec i s = .next t →
    ∃ r : Response, t = { s with responses := s.responses ++ [r] }

/-- R48: no receive command changes the transmit side: `TX_ARMED`, `TX_READY_AT`, CNT_TX, CNT_TXERR, the write history, the
write answers, the clock; and none changes the parameters or the port. -/
def Obligations.ReceiveCommandsLeaveTheTransmitSide : Prop :=
  ∀ (i : Instr) (s t : State), i.op ∈ [Op.align, Op.rdfr, Op.rxb] → exec i s = .next t →
    t.swfc.txArmed = s.swfc.txArmed ∧ t.swfc.txReadyAt = s.swfc.txReadyAt ∧ t.swfc.cnt.tx = s.swfc.cnt.tx ∧
    t.swfc.cnt.txerr = s.swfc.cnt.txerr ∧ t.writes = s.writes ∧ t.env.writes = s.env.writes ∧
    t.env.clock = s.env.clock ∧ t.env.lastSample = s.env.lastSample ∧ t.params = s.params ∧ t.port = s.port ∧
    (t.env.reads = s.env.reads ∨ ∃ r, s.env.reads = r :: t.env.reads) ∧
    (i = .align → t.env = s.env ∧ t.swfc.cnt.frames = s.swfc.cnt.frames ∧ t.swfc.cnt.trunc = s.swfc.cnt.trunc ∧
      t.swfc.cnt.purge = s.swfc.cnt.purge ∧ t.swfc.cnt.rxerr = s.swfc.cnt.rxerr)

/-- R48: TXB changes neither RAW, nor a receive counter, nor the read answers, nor the parameters; a TXB that writes leaves
the port as it is, one that holds stands at its front again (the model's form of the hold, log 6). -/
def Obligations.TxbLeavesTheReceiveSide : Prop :=
  ∀ (b : Byte) (s t : State), exec (.txb b) s = .next t →
    t.swfc.raw = s.swfc.raw ∧ t.swfc.cnt.frames = s.swfc.cnt.frames ∧ t.swfc.cnt.filter = s.swfc.cnt.filter ∧
    t.swfc.cnt.resync = s.swfc.cnt.resync ∧ t.swfc.cnt.trunc = s.swfc.cnt.trunc ∧
    t.swfc.cnt.purge = s.swfc.cnt.purge ∧ t.swfc.cnt.rxerr = s.swfc.cnt.rxerr ∧ t.env.reads = s.env.reads ∧
    t.params = s.params ∧
    ((∃ e r, t.writes = s.writes ++ [e] ∧ t.responses = s.responses ++ [r] ∧ t.port = s.port) ∨
      (t.swfc = s.swfc ∧ t.writes = s.writes ∧ t.responses = s.responses ∧ t.port = 0x20 :: b :: s.port))

/-- R9, R65, R150: every command completes in every state, without a trap, with exactly one response of R65's form; only a
TXB may instead hold, with no effect on the SWFC, and then stands at the front of the port again (log 6). -/
def Obligations.EveryCommandRespondsOnceOrHolds : Prop :=
  ∀ (i : Instr) (s : State), ∃ t, exec i s = .next t ∧
    ((∃ r : Response, t.responses = s.responses ++ [r] ∧ r.Formed ∧ t.port = s.port) ∨
      (∃ b, i = .txb b ∧ t.responses = s.responses ∧ t.swfc = s.swfc ∧ t.writes = s.writes ∧
        t.port = encode i ++ s.port))

/-- R65, R67: the length of each command's OK data, the statuses each command may respond, and no data with another status
than OK. -/
def Obligations.ResponsesFollowTheCommandMap : Prop :=
  ∀ (i : Instr) (s t : State) (r : Response), exec i s = .next t → t.responses = s.responses ++ [r] →
    (r.status = .ok ∧ r.data.length = okDataLength i.op) ∨ (r.status ∈ otherStatuses i.op ∧ r.data = [])

/-- R22: only the events the table names count: each counter changes by no command but those of its row (and CLRCNT and
SRST), and there CNT_FRAMES, CNT_TRUNC, CNT_PURGE, CNT_TX, CNT_TXERR and CNT_RXERR grow by at most 1. -/
def Obligations.OnlyTheNamedEventsCount : Prop :=
  ∀ (i : Instr) (s t : State) (k : Counter), exec i s = .next t → i ≠ .clrcnt → i ≠ .srst →
    (counterValue t.swfc.cnt k = counterValue s.swfc.cnt k ∨
      (k ∈ [Counter.filter, Counter.resync] ∧ i.op ∈ [Op.align, Op.rdfr, Op.rxb]) ∨
      (counterValue t.swfc.cnt k = counterValue s.swfc.cnt k + 1 ∧
        ((k ∈ [Counter.frames, Counter.trunc, Counter.purge, Counter.rxerr] ∧ i.op ∈ [Op.rdfr, Op.rxb]) ∨
          (k ∈ [Counter.tx, Counter.txerr] ∧ i.op = .txb))))

/-- R22: the counters never influence any other behaviour: two states that differ in the counters alone go on, by any step
that is not an RDSR of a counter, to states that differ in the counters alone. -/
def Obligations.CountersNeverInfluenceBehaviour : Prop :=
  ∀ s t s' : State, SameButCounters s t → step s = .next s' →
    (∀ idx rest, decode s.port = .ok (.rdsr idx, rest) → 8 ≤ idx.toNat) →
    ∃ t', step t = .next t' ∧ SameButCounters s' t'

/-- R5, R171: the parameters are fixed: no step changes them. -/
def Obligations.ParametersNeverChange : Prop :=
  ∀ s t : State, step s = .next t → t.params = s.params

/-- R29, R176: with `RAW_CAP` at least 7 no step counts a purge (CLRCNT and SRST clear the count). -/
def Obligations.NoPurgeFromCapSevenUp : Prop :=
  ∀ s t : State, 7 ≤ s.params.rawCap → step s = .next t →
    t.swfc.cnt.purge = s.swfc.cnt.purge ∨ t.swfc.cnt.purge = 0

/-- R29, R65, R131: every step keeps the invariant: the parameters meet R5's constraints, RAW holds at most 7 bytes, the
gap's deadline belongs to the last write, responses are formed as R65 says, every frame written is an encoding. -/
def Obligations.EveryStepKeepsTheInvariant : Prop :=
  ∀ s t : State, Inv s → step s = .next t → Inv t

/-- The invariant holds in the reset state (R170; the default parameters there are the model's choice, log 1). -/
def Obligations.ResetMeetsTheInvariant : Prop := Inv State.reset

/-- R71, R72: a TXSTR line assembles to one TXB for each byte of its string, in order, the escapes of R71 included; an RXN
line assembles to that many RXB. That semicolons, blanks, apostrophes and line ends in the string are characters of it is
the model's choice where R71 is silent (log 13). -/
def Obligations.PseudoInstructionsExpand : Prop :=
  (∀ ps : List (List Char × Byte),
    (∀ p ∈ ps, (∃ c : Char, c.toNat < 128 ∧ c.toNat ≠ 34 ∧ c.toNat ≠ 92 ∧ p = ([c], BitVec.ofNat 8 c.toNat)) ∨
      p = ([escapeChar, 'r'], 0x0D) ∨ p = ([escapeChar, 'n'], 0x0A)) →
    assembleLine ("TXSTR ".toList ++ [stringChar] ++ ps.flatMap Prod.fst ++ [stringChar]) =
      some (ps.map fun p => .txb p.2)) ∧
  (∀ ds : List (Fin 10), ds ≠ [] →
    assembleLine ("RXN ".toList ++ ds.map (fun d => Char.ofNat (48 + d.val))) =
      some (List.replicate (ds.foldl (fun n d => 10 * n + d.val) 0) .rxb))

/-- R179: a run has at most one observation, with one response for each command; a run without TXB ends after one step for
each command; and a run ends, or one of its TXBs, from some step on, holds for ever (R179's hang). A step of a hold is one
sample (log 6). -/
def Obligations.RunEndsWithOneObservation : Prop :=
  ∀ r : Run, (∀ c ∈ r.commands, c.wellFormed = true) →
    (∀ j k o o', r.observation j = some o → r.observation k = some o' →
      o = o' ∧ o.responses.length = r.commands.length) ∧
    ((∀ b, .command (.txb b) ∉ r.commands) → ∃ o, r.observation r.commands.length = some o) ∧
    ((∃ k o, r.observation k = some o) ∨
      ∃ (n : Nat) (b : Byte) (rest : List Byte), .command (.txb b) ∈ r.commands ∧
        ∀ k ≥ n, ∃ t, runSteps k r.start = .next t ∧ t.port = 0x20 :: b :: rest)

/-- R179, R132: the observation does not say which prefix of a failed write reached the wire: two runs whose write answers
agree in success and failure show the same, at every step. -/
def Obligations.ObservationHidesTheEmittedPrefix : Prop :=
  ∀ (r : Run) (answers : List WriteAnswer) (k : Nat), r.writes.map writeOk = answers.map writeOk →
    { r with writes := answers }.observation k = r.observation k
end

