-- ==== Sys2Proof/Laws/Decode.lean ====
section
/-! SUPPORT. Small lemmas of the decoder and encoder. -/

namespace Sys2Proof

@[simp] theorem frameBytes_length (f : Frame) : (frameBytes f).length = 4 := rfl

/-- Reading a frame off its own bytes gives it back, with what follows. -/
@[simp] theorem takeFrame_frameBytes_append (f : Frame) (rest : List Byte) :
    takeFrame (frameBytes f ++ rest) = some (f, rest) := rfl

/-- What `takeFrame` reads is the front of the list. -/
theorem takeFrame_eq_some {l : List Byte} {f : Frame} {rest : List Byte} :
    takeFrame l = some (f, rest) ↔ l = frameBytes f ++ rest := by
  constructor
  · intro h
    match l, h with
    | b0 :: b1 :: b2 :: b3 :: tl, h =>
      simp only [takeFrame, Option.some.injEq, Prod.mk.injEq] at h
      obtain ⟨rfl, rfl⟩ := h
      rfl
  · rintro rfl
    rfl

/-- `takeFrame` fails exactly on lists of fewer than 4 bytes. -/
theorem takeFrame_eq_none {l : List Byte} : takeFrame l = none ↔ l.length < 4 := by
  match l with
  | [] => simp [takeFrame]
  | [_] => simp [takeFrame]
  | [_, _] => simp [takeFrame]
  | [_, _, _] => simp [takeFrame]
  | _ :: _ :: _ :: _ :: _ => simp [takeFrame]

/-- Every command's opcode byte names it (R67). -/
@[simp] theorem opOf_code (o : Op) : opOf o.code = some o := by cases o <;> rfl

/-- An opcode byte names at most one command. -/
theorem code_of_opOf {c : Byte} {o : Op} (h : opOf c = some o) : o.code = c := by
  have key : ∀ c : Byte, ∀ o : Op, opOf c = some o → o.code = c := by decide +revert
  exact key c o h

end Sys2Proof
end

