-- ==== Sys2Proof/Laws/State.lean ====
section
/-! SUPPORT. What each shared update leaves of the state: one lemma per field, so that no proof unfolds a record update. -/

namespace Sys2Proof.Machine

section respond
variable (st : Status) (d : List Byte) (s : State)
@[simp] theorem respond_swfc : (respond st d s).swfc = s.swfc := rfl
@[simp] theorem respond_params : (respond st d s).params = s.params := rfl
@[simp] theorem respond_port : (respond st d s).port = s.port := rfl
@[simp] theorem respond_env : (respond st d s).env = s.env := rfl
@[simp] theorem respond_writes : (respond st d s).writes = s.writes := rfl
@[simp] theorem respond_responses : (respond st d s).responses = s.responses ++ [⟨st, d⟩] := rfl
end respond

section reportIllegal
variable (s : State)
@[simp] theorem reportIllegal_swfc : (reportIllegal s).swfc = s.swfc := rfl
@[simp] theorem reportIllegal_params : (reportIllegal s).params = s.params := rfl
@[simp] theorem reportIllegal_port : (reportIllegal s).port = s.port := rfl
@[simp] theorem reportIllegal_env : (reportIllegal s).env = s.env := rfl
@[simp] theorem reportIllegal_writes : (reportIllegal s).writes = s.writes := rfl
@[simp] theorem reportIllegal_responses : (reportIllegal s).responses = s.responses ++ [⟨.illegal, []⟩] := rfl
end reportIllegal

section count
variable (k : Counter) (s : State)
@[simp] theorem count_raw : (count k s).swfc.raw = s.swfc.raw := rfl
@[simp] theorem count_cnt : (count k s).swfc.cnt = bump k s.swfc.cnt := rfl
@[simp] theorem count_txArmed : (count k s).swfc.txArmed = s.swfc.txArmed := rfl
@[simp] theorem count_txReadyAt : (count k s).swfc.txReadyAt = s.swfc.txReadyAt := rfl
@[simp] theorem count_params : (count k s).params = s.params := rfl
@[simp] theorem count_port : (count k s).port = s.port := rfl
@[simp] theorem count_env : (count k s).env = s.env := rfl
@[simp] theorem count_responses : (count k s).responses = s.responses := rfl
@[simp] theorem count_writes : (count k s).writes = s.writes := rfl
end count

/-- Incrementing a counter adds 1 to it (R22). -/
@[simp] theorem counterValue_bump_self (k : Counter) (c : Counters) :
    counterValue (bump k c) k = counterValue c k + 1 := by cases k <;> rfl

/-- Incrementing a counter leaves every other one (R22). -/
theorem counterValue_bump_of_ne {k j : Counter} (h : j ≠ k) (c : Counters) :
    counterValue (bump k c) j = counterValue c j := by
  cases k <;> cases j <;> first | rfl | exact absurd rfl h

/-- Counters are equal when all 8 values are. -/
theorem counters_ext {c d : Counters} (h : ∀ k, counterValue c k = counterValue d k) : c = d := by
  obtain ⟨c0, c1, c2, c3, c4, c5, c6, c7⟩ := c
  obtain ⟨d0, d1, d2, d3, d4, d5, d6, d7⟩ := d
  have h0 := h .frames; have h1 := h .filter; have h2 := h .resync; have h3 := h .trunc
  have h4 := h .purge; have h5 := h .tx; have h6 := h .txerr; have h7 := h .rxerr
  simp only [counterValue] at h0 h1 h2 h3 h4 h5 h6 h7
  subst h0 h1 h2 h3 h4 h5 h6 h7
  rfl

section rawAppend
variable (l : List Byte) (s : State)
@[simp] theorem rawAppend_raw : (rawAppend l s).swfc.raw = appendPurge s.params s.swfc.raw l := rfl
@[simp] theorem rawAppend_cnt : (rawAppend l s).swfc.cnt =
    if (s.swfc.raw ++ l).length > s.params.rawCap then bump .purge s.swfc.cnt else s.swfc.cnt := rfl
@[simp] theorem rawAppend_txArmed : (rawAppend l s).swfc.txArmed = s.swfc.txArmed := rfl
@[simp] theorem rawAppend_txReadyAt : (rawAppend l s).swfc.txReadyAt = s.swfc.txReadyAt := rfl
@[simp] theorem rawAppend_params : (rawAppend l s).params = s.params := rfl
@[simp] theorem rawAppend_port : (rawAppend l s).port = s.port := rfl
@[simp] theorem rawAppend_env : (rawAppend l s).env = s.env := rfl
@[simp] theorem rawAppend_responses : (rawAppend l s).responses = s.responses := rfl
@[simp] theorem rawAppend_writes : (rawAppend l s).writes = s.writes := rfl
end rawAppend

section alignProc
variable (s : State)
@[simp] theorem alignProc_raw : (alignProc s).2.swfc.raw = (alignLoop s.params s.swfc.raw s.swfc.cnt).2.1 := rfl
@[simp] theorem alignProc_cnt : (alignProc s).2.swfc.cnt = (alignLoop s.params s.swfc.raw s.swfc.cnt).2.2 := rfl
@[simp] theorem alignProc_bit : (alignProc s).1 = (alignLoop s.params s.swfc.raw s.swfc.cnt).1 := rfl
@[simp] theorem alignProc_txArmed : (alignProc s).2.swfc.txArmed = s.swfc.txArmed := rfl
@[simp] theorem alignProc_txReadyAt : (alignProc s).2.swfc.txReadyAt = s.swfc.txReadyAt := rfl
@[simp] theorem alignProc_params : (alignProc s).2.params = s.params := rfl
@[simp] theorem alignProc_port : (alignProc s).2.port = s.port := rfl
@[simp] theorem alignProc_env : (alignProc s).2.env = s.env := rfl
@[simp] theorem alignProc_responses : (alignProc s).2.responses = s.responses := rfl
@[simp] theorem alignProc_writes : (alignProc s).2.writes = s.writes := rfl
end alignProc

section hold
variable (i : Instr) (s : State)
@[simp] theorem hold_swfc : (hold i s).swfc = s.swfc := rfl
@[simp] theorem hold_params : (hold i s).params = s.params := rfl
@[simp] theorem hold_port : (hold i s).port = encode i ++ s.port := rfl
@[simp] theorem hold_env : (hold i s).env = s.env := rfl
@[simp] theorem hold_responses : (hold i s).responses = s.responses := rfl
@[simp] theorem hold_writes : (hold i s).writes = s.writes := rfl
end hold

end Sys2Proof.Machine
end

