-- ==== Sys2Proof/Laws/Align.lean ====
section
/-! SUPPORT. The alignment loop (R100), one equation per way it can go on. -/

namespace Sys2Proof.Machine

variable (p : Params)

@[simp] theorem alignLoop_nil (c : Counters) : alignLoop p [] c = (false, [], c) := by simp [alignLoop]

/-- R100 step 1: an invalid front byte is dropped and counted. -/
theorem alignLoop_invalid {w : Byte} (h : validByte p w = false) (rest : List Byte) (c : Counters) :
    alignLoop p (w :: rest) c = alignLoop p rest (bump .filter c) := by simp [alignLoop, h]

/-- R100 step 2: with a valid front byte and fewer than 4 bytes the loop ends, not aligned. -/
theorem alignLoop_short {w : Byte} (h : validByte p w = true) {rest : List Byte} (hl : rest.length < 3)
    (c : Counters) : alignLoop p (w :: rest) c = (false, w :: rest, c) := by
  have : window (w :: rest) = none := by
    simp only [window, Option.map_eq_none_iff, takeFrame_eq_none, List.length_cons]
    omega
  simp [alignLoop, h, this]

/-- R100 step 3: a trial frame that passes ends the loop, aligned. -/
theorem alignLoop_pass {f : Frame} (h : validByte p f.f0 = true) (hf : rtOk p f = true) (rest : List Byte)
    (c : Counters) : alignLoop p (frameBytes f ++ rest) c = (true, frameBytes f ++ rest, c) := by
  have hw : window (f.f0 :: f.f1 :: f.f2 :: f.f3 :: rest) = some f := rfl
  change alignLoop p (f.f0 :: f.f1 :: f.f2 :: f.f3 :: rest) c = _
  simp [alignLoop, h, hw, hf, frameBytes]

/-- R100 step 4: a trial frame that fails loses its leading byte, and the scan goes on. -/
theorem alignLoop_fail {f : Frame} (h : validByte p f.f0 = true) (hf : rtOk p f = false) (rest : List Byte)
    (c : Counters) :
    alignLoop p (frameBytes f ++ rest) c = alignLoop p (f.f1 :: f.f2 :: f.f3 :: rest) (bump .resync c) := by
  have hw : window (f.f0 :: f.f1 :: f.f2 :: f.f3 :: rest) = some f := rfl
  change alignLoop p (f.f0 :: f.f1 :: f.f2 :: f.f3 :: rest) c = _
  simp only [alignLoop, h, if_true, hw, hf]
  rfl

/-- The induction of the loop, by the four ways it can go on. -/
theorem alignLoop_induct {motive : List Byte → Counters → Prop}
    (nil : ∀ c, motive [] c)
    (invalid : ∀ w rest c, validByte p w = false → motive rest (bump .filter c) → motive (w :: rest) c)
    (short : ∀ w rest c, validByte p w = true → rest.length < 3 → motive (w :: rest) c)
    (pass : ∀ f rest c, validByte p f.f0 = true → rtOk p f = true → motive (frameBytes f ++ rest) c)
    (fail : ∀ f rest c, validByte p f.f0 = true → rtOk p f = false →
      motive (f.f1 :: f.f2 :: f.f3 :: rest) (bump .resync c) → motive (frameBytes f ++ rest) c)
    (raw : List Byte) (c : Counters) : motive raw c := by
  induction raw generalizing c with
  | nil => exact nil c
  | cons w rest ih =>
    cases hv : validByte p w with
    | false => exact invalid w rest c hv (ih _)
    | true =>
      match rest, ih with
      | [], _ => exact short w [] c hv (by simp)
      | [x], _ => exact short w [x] c hv (by simp)
      | [x, y], _ => exact short w [x, y] c hv (by simp)
      | x :: y :: z :: tl, ih =>
        cases hf : rtOk p ⟨w, x, y, z⟩ with
        | true => exact pass ⟨w, x, y, z⟩ tl c hv hf
        | false => exact fail ⟨w, x, y, z⟩ tl c hv hf (ih _)

/-- The loop only drops bytes from the front: what it leaves is a suffix. -/
theorem alignLoop_suffix (raw : List Byte) (c : Counters) : (alignLoop p raw c).2.1 <:+ raw := by
  induction raw, c using alignLoop_induct p with
  | nil c => simp
  | invalid w rest c hv ih =>
    rw [alignLoop_invalid p hv]
    exact ih.trans (List.suffix_cons w rest)
  | short w rest c hv hl => rw [alignLoop_short p hv hl]
  | pass f rest c hv hf => rw [alignLoop_pass p hv hf]
  | fail f rest c hv hf ih =>
    rw [alignLoop_fail p hv hf]
    exact ih.trans (List.suffix_cons f.f0 _)

theorem alignLoop_length_le (raw : List Byte) (c : Counters) : (alignLoop p raw c).2.1.length ≤ raw.length :=
  (alignLoop_suffix p raw c).length_le

/-- What the loop ends with (R101): aligned on a frame that passes, or fewer than 4 bytes. -/
theorem alignLoop_result (raw : List Byte) (c : Counters) :
    ((alignLoop p raw c).1 = true ∧ ∃ f rest, (alignLoop p raw c).2.1 = frameBytes f ++ rest ∧
        validByte p f.f0 = true ∧ rtOk p f = true) ∨
      ((alignLoop p raw c).1 = false ∧ (alignLoop p raw c).2.1.length ≤ 3 ∧
        ∀ w ∈ (alignLoop p raw c).2.1.head?, validByte p w = true) := by
  induction raw, c using alignLoop_induct p with
  | nil c => right; simp
  | invalid w rest c hv ih => rw [alignLoop_invalid p hv]; exact ih
  | short w rest c hv hl =>
    rw [alignLoop_short p hv hl]
    right
    refine ⟨rfl, by simpa using hl, ?_⟩
    simpa using hv
  | pass f rest c hv hf =>
    rw [alignLoop_pass p hv hf]
    exact .inl ⟨rfl, f, rest, rfl, hv, hf⟩
  | fail f rest c hv hf ih => rw [alignLoop_fail p hv hf]; exact ih

/-- The loop changes no counter but `CNT_FILTER` and `CNT_RESYNC` (R104). -/
theorem alignLoop_otherCounters (raw : List Byte) (c : Counters) {k : Counter} (h1 : k ≠ .filter) (h2 : k ≠ .resync) :
    counterValue (alignLoop p raw c).2.2 k = counterValue c k := by
  induction raw, c using alignLoop_induct p with
  | nil c => simp
  | invalid w rest c hv ih => rw [alignLoop_invalid p hv, ih, counterValue_bump_of_ne h1]
  | short w rest c hv hl => rw [alignLoop_short p hv hl]
  | pass f rest c hv hf => rw [alignLoop_pass p hv hf]
  | fail f rest c hv hf ih => rw [alignLoop_fail p hv hf, ih, counterValue_bump_of_ne h2]

/-- Whatever the counters hold, the loop drops the same bytes (R22: counters never influence behaviour). -/
theorem alignLoop_counters_irrelevant (raw : List Byte) (c d : Counters) :
    (alignLoop p raw c).1 = (alignLoop p raw d).1 ∧ (alignLoop p raw c).2.1 = (alignLoop p raw d).2.1 := by
  induction raw, c using alignLoop_induct p generalizing d with
  | nil c => simp
  | invalid w rest c hv ih => rw [alignLoop_invalid p hv, alignLoop_invalid p hv]; exact ih _
  | short w rest c hv hl => rw [alignLoop_short p hv hl, alignLoop_short p hv hl]; simp
  | pass f rest c hv hf => rw [alignLoop_pass p hv hf, alignLoop_pass p hv hf]; simp
  | fail f rest c hv hf ih => rw [alignLoop_fail p hv hf, alignLoop_fail p hv hf]; exact ih _

end Sys2Proof.Machine
end

