-- ==== Sys2Proof/Laws/Codec.lean ====
section
/-! SUPPORT. The byte codec bit by bit, for every choice of the parameters. -/

namespace Sys2Proof.Machine

variable (p : Params)

theorem bitByte_shiftLeft_getLsbD (v : Byte) (i k j : Nat) (hj : j < 8) :
    (bitByte v i <<< k).getLsbD j = (decide (j = k) && v.getLsbD i) := by
  unfold bitByte
  rcases Nat.lt_trichotomy j k with h | h | h
  · simp [BitVec.getLsbD_shiftLeft, h, Nat.ne_of_lt h]
  · subst h
    cases v.getLsbD i <;> simp [hj]
  · have h1 : ¬ j < k := by omega
    have h2 : ¬ j = k := by omega
    cases v.getLsbD i <;> simp [hj, h1, h2]
    omega

/-- The mask has exactly the two data bits set (R5). -/
theorem codecMask_getLsbD (j : Nat) (hj : j < 8) :
    (codecMask p).getLsbD j = (decide (j = p.posLo.val) || decide (j = p.posHi.val)) := by
  have key : ∀ k : Nat, ((1 : Byte) <<< k).getLsbD j = decide (j = k) := by
    intro k
    have := bitByte_shiftLeft_getLsbD 1 0 k j hj
    simpa [bitByte] using this
  simp only [codecMask, BitVec.getLsbD_or, key]

/-- Each bit of a frame byte (R80). -/
theorem encByte_getLsbD (b : Byte) (i j : Nat) (hj : j < 8) :
    (encByte p b i).getLsbD j =
      ((p.base.getLsbD j && !(decide (j = p.posLo.val) || decide (j = p.posHi.val))) ||
        (decide (j = p.posLo.val) && b.getLsbD (2 * i)) || (decide (j = p.posHi.val) && b.getLsbD (2 * i + 1))) := by
  simp only [encByte, BitVec.getLsbD_or, BitVec.getLsbD_and, BitVec.getLsbD_not, codecMask_getLsbD p j hj,
    bitByte_shiftLeft_getLsbD _ _ _ j hj, hj, decide_true, Bool.true_and]

/-- Each bit that one frame byte contributes to the payload byte (R81). -/
theorem decByte_getLsbD (w : Byte) (i j : Nat) (hj : j < 8) :
    (decByte p w i).getLsbD j =
      ((decide (j = 2 * i) && w.getLsbD p.posLo.val) || (decide (j = 2 * i + 1) && w.getLsbD p.posHi.val)) := by
  simp only [decByte, BitVec.getLsbD_or, bitByte_shiftLeft_getLsbD _ _ _ j hj]

/-- The validity test bit by bit: every bit outside the two positions equals the base's (R61). -/
theorem validByte_iff (w : Byte) :
    validByte p w = true ↔ ∀ j < 8, j ≠ p.posLo.val → j ≠ p.posHi.val → w.getLsbD j = p.base.getLsbD j := by
  unfold validByte
  rw [beq_iff_eq]
  constructor
  · intro h j hj h1 h2
    have := congrArg (fun v : Byte => v.getLsbD j) h
    simp only [BitVec.getLsbD_and, BitVec.getLsbD_not, codecMask_getLsbD p j hj, hj, h1, h2] at this
    simpa using this
  · intro h
    apply BitVec.eq_of_getLsbD_eq
    intro j hj
    simp only [BitVec.getLsbD_and, BitVec.getLsbD_not, codecMask_getLsbD p j hj, hj, decide_true, Bool.true_and]
    by_cases h1 : j = p.posLo.val
    · simp [h1]
    · by_cases h2 : j = p.posHi.val
      · simp [h2]
      · simp [h1, h2, h j hj h1 h2]

end Sys2Proof.Machine
end

