-- ==== Sys2Proof/Laws/Ops.lean ====
section
/-! SUPPORT. One lemma per shared operation: everything it can do. -/

namespace Sys2Proof.Machine

/-- A transport read takes the next listed answer, or a free value when none is listed; nothing else changes. -/
theorem transportRead_cases (s : State) :
    (∃ a rest, s.env.reads = a :: rest ∧ transportRead s = (a, { s with env := { s.env with reads := rest } })) ∨
      (s.env.reads = [] ∧
        transportRead s = (Config.freeRead s.env.draws, { s with env := { s.env with draws := s.env.draws + 1 } })) := by
  unfold transportRead
  match h : s.env.reads with
  | a :: rest => exact .inl ⟨a, rest, rfl, rfl⟩
  | [] => exact .inr ⟨rfl, rfl⟩

/-- A write's answer is the next listed one, or a free value when none is listed; nothing else changes. -/
theorem writeAnswer_cases (s : State) :
    (∃ a rest, s.env.writes = a :: rest ∧ writeAnswer s = (a, { s with env := { s.env with writes := rest } })) ∨
      (s.env.writes = [] ∧
        writeAnswer s = (Config.freeWrite s.env.draws, { s with env := { s.env with draws := s.env.draws + 1 } })) := by
  unfold writeAnswer
  match h : s.env.writes with
  | a :: rest => exact .inl ⟨a, rest, rfl, rfl⟩
  | [] => exact .inr ⟨rfl, rfl⟩

/-- A clock sample follows the last one by the next listed draw, or by a free value when none is listed. -/
theorem now_cases (s : State) :
    (∃ d rest, s.env.clock = d :: rest ∧ now s = (sampleAfter s.env.lastSample d,
        { s with env := { s.env with clock := rest, lastSample := some (sampleAfter s.env.lastSample d) } })) ∨
      (s.env.clock = [] ∧ now s = (sampleAfter s.env.lastSample (Config.freeClock s.env.draws),
        { s with env := { s.env with
            lastSample := some (sampleAfter s.env.lastSample (Config.freeClock s.env.draws))
            draws := s.env.draws + 1 } })) := by
  unfold now
  match h : s.env.clock with
  | d :: rest => exact .inl ⟨d, rest, rfl, rfl⟩
  | [] => exact .inr ⟨rfl, rfl⟩

/-- Sampling the clock changes the environment only. -/
theorem now_state (s : State) : ∃ e : Env, (now s).2 = { s with env := e } ∧ e.reads = s.env.reads ∧
    e.writes = s.env.writes ∧ e.lastSample = some (now s).1 := by
  rcases now_cases s with ⟨d, rest, -, h⟩ | ⟨-, h⟩ <;> rw [h] <;> exact ⟨_, rfl, rfl, rfl, rfl⟩

/-- A write adds its event to the history and changes nothing else but the environment's inputs. -/
theorem transportWrite_state (f : Frame) (t : Word) (s : State) : ∃ (a : WriteAnswer) (e : Env),
    transportWrite f t s = (writeOk a, { s with env := e, writes := s.writes ++ [⟨f, a, t⟩] }) ∧
      e.reads = s.env.reads ∧ e.clock = s.env.clock ∧ e.lastSample = s.env.lastSample := by
  unfold transportWrite
  rcases writeAnswer_cases s with ⟨a, rest, -, h⟩ | ⟨-, h⟩ <;> rw [h] <;> exact ⟨_, _, rfl, rfl, rfl, rfl⟩

/-- A later sample lies less than `2^31` after the last, modulo `2^32` (R157). -/
theorem sampleAfter_monotonic (t d : Word) : (sampleAfter (some t) d - t).toNat < 2147483648 := by
  have : sampleAfter (some t) d - t = d &&& 0x7FFFFFFF := by
    simp only [sampleAfter]
    rw [BitVec.add_comm, BitVec.add_sub_cancel]
  rw [this, BitVec.toNat_and]
  exact Nat.lt_of_le_of_lt Nat.and_le_right (by decide)

/-- Extraction changes nothing of the state but RAW and `CNT_FRAMES`. -/
theorem extractFrame_cases (a : Bool) (s : State) :
    (∃ f rest, a = true ∧ s.swfc.raw = frameBytes f ++ rest ∧
        extractFrame a s = (.ok f, count .frames { s with swfc := { s.swfc with raw := rest } })) ∨
      ((a = false ∨ s.swfc.raw.length < 4) ∧ extractFrame a s = (.error .noframe, s)) := by
  unfold extractFrame
  cases a with
  | false => exact .inr ⟨.inl rfl, rfl⟩
  | true =>
    match h : takeFrame s.swfc.raw with
    | none => exact .inr ⟨.inr (takeFrame_eq_none.mp h), rfl⟩
    | some (f, rest) => exact .inl ⟨f, rest, rfl, takeFrame_eq_some.mp h, rfl⟩

/-- Appending adds at most what is appended, whether or not it purges (R46). -/
theorem appendPurge_length_le (p : Params) (raw l : List Byte) :
    (appendPurge p raw l).length ≤ raw.length + l.length := by
  unfold appendPurge
  split <;> simp

/-- Within the cap an append purges nothing (R46). -/
theorem appendPurge_of_le {p : Params} {raw l : List Byte} (h : raw.length + l.length ≤ p.rawCap) :
    appendPurge p raw l = raw ++ l := by
  simp [appendPurge, Nat.not_lt.mpr h]

/-- A read delivers at most 4 bytes (R44). -/
theorem delivered_length_le (n : Nat) (b : Frame) : (delivered n b).length ≤ 4 := by
  simp only [delivered, List.length_take, frameBytes_length]
  omega

/-- Taking a command off the port either yields the decoded command and the rest, or names why there is none. -/
theorem fetch_cases (s : State) :
    (∃ i rest, decode s.port = .ok (i, rest) ∧ fetch s = .ok (i, { s with port := rest })) ∨
      (∃ e, decode s.port = .error e ∧ fetch s = .error e) := by
  unfold fetch
  match h : decode s.port with
  | .ok (i, rest) => exact .inl ⟨i, rest, rfl, rfl⟩
  | .error e => exact .inr ⟨e, rfl, rfl⟩

end Sys2Proof.Machine
end

