-- ==== Sys2Proof/Laws/PerInstr.lean ====
section
/-! SUPPORT. What is said of every command, one lemma per constructor. -/

namespace Sys2Proof.Laws.EncodedLength

/-- The encoding begins with the command's opcode byte and has the length that byte alone fixes (R70). -/
def Statement (i : Instr) : Prop :=
  ∃ operands, encode i = i.op.code :: operands ∧ (encode i).length = commandLength i.op.code

theorem nop : Statement .nop := ⟨_, rfl, rfl⟩
theorem enc (b : Byte) : Statement (.enc b) := ⟨_, rfl, rfl⟩
theorem dec (f : Frame) : Statement (.dec f) := ⟨_, rfl, rfl⟩
theorem chk (f : Frame) : Statement (.chk f) := ⟨_, rfl, rfl⟩
theorem valb (w : Byte) : Statement (.valb w) := ⟨_, rfl, rfl⟩
theorem align : Statement .align := ⟨_, rfl, rfl⟩
theorem rdfr : Statement .rdfr := ⟨_, rfl, rfl⟩
theorem rxb : Statement .rxb := ⟨_, rfl, rfl⟩
theorem txb (b : Byte) : Statement (.txb b) := ⟨_, rfl, rfl⟩
theorem rdsr (idx : Byte) : Statement (.rdsr idx) := ⟨_, rfl, rfl⟩
theorem clrcnt : Statement .clrcnt := ⟨_, rfl, rfl⟩
theorem srst : Statement .srst := ⟨_, rfl, rfl⟩

end Sys2Proof.Laws.EncodedLength
end

