-- ==== Sys2Proof/Laws/ReadFrame.lean ====
section
/-! SUPPORT. What the body of RDFR (R106) can do, said once: RDFR and RXB both run it. -/

namespace Sys2Proof.Machine

/-- The body of RDFR touches only RAW, the counters and the environment's inputs (R48, R106). -/
theorem takeRead_frame (r : ReadAnswer) (s : State) : ∃ raw cnt,
    (takeRead r s).2 = { s with swfc := { s.swfc with raw := raw, cnt := cnt } } := by
  cases r with
  | fail => exact ⟨_, _, rfl⟩
  | data n b =>
    simp only [takeRead]
    rcases extractFrame_cases (alignProc (rawAppend (delivered n b) (if n > 4 then count .trunc s else s))).1
      (alignProc (rawAppend (delivered n b) (if n > 4 then count .trunc s else s))).2 with ⟨f, rest, -, -, h⟩ | ⟨-, h⟩
    all_goals
      rw [h]
      split <;> exact ⟨_, _, rfl⟩

/-- RDFR's body: aligned on entry, it extracts without a read; else it makes exactly one read (R106). -/
theorem readFrame_cases (s : State) :
    (4 ≤ (alignProc s).2.swfc.raw.length ∧ readFrame s = extractFrame (alignProc s).1 (alignProc s).2) ∨
      ((alignProc s).2.swfc.raw.length < 4 ∧
        readFrame s = takeRead (transportRead (alignProc s).2).1 (transportRead (alignProc s).2).2) := by
  unfold readFrame
  by_cases h : (alignProc s).2.swfc.raw.length < 4
  · right; exact ⟨h, if_pos h⟩
  · left; exact ⟨Nat.not_lt.mp h, if_neg h⟩

/-- The body of RDFR touches only RAW, the counters, the listed reads and the draws (R48). -/
theorem readFrame_frame (s : State) : ∃ raw cnt reads draws,
    (readFrame s).2 = { s with
      swfc := { s.swfc with raw := raw, cnt := cnt }
      env := { s.env with reads := reads, draws := draws } } := by
  rcases readFrame_cases s with ⟨-, h⟩ | ⟨-, h⟩
  · rw [h]
    rcases extractFrame_cases (alignProc s).1 (alignProc s).2 with ⟨f, rest, -, -, h'⟩ | ⟨-, h'⟩
    all_goals rw [h']; exact ⟨_, _, _, _, rfl⟩
  · rw [h]
    obtain ⟨raw, cnt, h'⟩ := takeRead_frame (transportRead (alignProc s).2).1 (transportRead (alignProc s).2).2
    rw [h']
    rcases transportRead_cases (alignProc s).2 with ⟨a, rest, -, h''⟩ | ⟨-, h''⟩
    all_goals rw [h'']; exact ⟨_, _, _, _, rfl⟩

/-- Every status the body of RDFR ends with is `NOFRAME` or `RXERR` (R66). -/
theorem readFrame_status {s : State} {st : Status} (h : (readFrame s).1 = .error st) : st = .noframe ∨ st = .rxerr := by
  have ext : ∀ a t, (extractFrame a t).1 = Except.error st → st = .noframe := by
    intro a t ht
    rcases extractFrame_cases a t with ⟨f, rest, -, -, h'⟩ | ⟨-, h'⟩ <;> rw [h'] at ht <;> simp at ht
    exact ht.symm
  rcases readFrame_cases s with ⟨-, h'⟩ | ⟨-, h'⟩
  · rw [h'] at h; exact .inl (ext _ _ h)
  · rw [h'] at h
    match hr : (transportRead (alignProc s).2).1 with
    | .fail => rw [hr] at h; simp [takeRead] at h; exact .inr h.symm
    | .data n b => rw [hr] at h; simp only [takeRead] at h; exact .inl (ext _ _ h)

end Sys2Proof.Machine
end

