-- ==== Sys2Proof/Laws/Step.lean ====
section
/-! SUPPORT. What one step can do, said once. -/

namespace Sys2Proof.Machine

/-- A step executes the decoded command, or does what the SWFC does without one. -/
theorem step_cases (s : State) :
    (∃ i rest, decode s.port = .ok (i, rest) ∧ step s = exec i { s with port := rest }) ∨
      (∃ e, decode s.port = .error e ∧ step s = .next (withoutCommand e s)) := by
  unfold step
  rcases fetch_cases s with ⟨i, rest, h, h'⟩ | ⟨e, h, h'⟩
  · rw [h']; exact .inl ⟨i, rest, h, rfl⟩
  · rw [h']; exact .inr ⟨e, h, rfl⟩

/-- The transmission of TXB changes only the gap, two counters, the environment's inputs, and what the run shows. -/
theorem transmit_state (b : Byte) (t : Word) (s : State) : ∃ (a : WriteAnswer) (e : Env),
    transmit b t s = { s with
      swfc := { s.swfc with
        txArmed := true
        txReadyAt := t + BitVec.ofNat 32 s.params.txGapMs
        cnt := bump (if writeOk a then .tx else .txerr) s.swfc.cnt }
      env := e
      writes := s.writes ++ [⟨enc s.params b, a, t⟩]
      responses := s.responses ++ [⟨if writeOk a then .ok else .txerr, []⟩] } ∧
    e.reads = s.env.reads ∧ e.clock = s.env.clock ∧ e.lastSample = s.env.lastSample := by
  obtain ⟨a, e, h, he⟩ := transportWrite_state (enc s.params b) t s
  refine ⟨a, e, ?_, he⟩
  unfold transmit
  rw [h]
  cases writeOk a <;> rfl

end Sys2Proof.Machine
end

