-- ==== Sys2Proof/Laws/Run.lean ====
section
/-! SUPPORT. Runs of several steps. -/

namespace Sys2Proof.Machine

theorem core_run_next (M : Host.Core) {s t : M.State} (h : M.step s = .next t) (k : Nat) :
    M.run (k + 1) s = M.run k t := by simp [Host.Core.run, h]

theorem core_run_fault (M : Host.Core) {s : M.State} {r : M.Fault} (h : M.step s = .fault r) (k : Nat) :
    M.run (k + 1) s = .fault r := by simp [Host.Core.run, h]

theorem core_run_refused (M : Host.Core) {s : M.State} {r : M.Refusal} (h : M.step s = .refused r) (k : Nat) :
    M.run (k + 1) s = .refused r := by simp [Host.Core.run, h]

/-- `runSteps` is the host's own run of the machine. -/
theorem runSteps_eq_core_run (k : Nat) (s : State) : runSteps k s = Host.Core.run core k s := by
  induction k generalizing s with
  | zero => rfl
  | succ k ih =>
    simp only [runSteps]
    match hs : step s with
    | .next t => exact (ih t).trans (core_run_next core hs k).symm
    | .fault r => exact (core_run_fault core hs k).symm
    | .refused r => exact (core_run_refused core hs k).symm

/-- A run goes on from the state one step gives. -/
theorem runSteps_succ {s t : State} (h : step s = .next t) (k : Nat) : runSteps (k + 1) s = runSteps k t := by
  simp only [runSteps, h]

/-- A run of one step. -/
theorem runSteps_one {s t : State} (h : step s = .next t) : runSteps 1 s = .next t := by
  rw [runSteps_succ h]; rfl

/-- Runs compose. -/
theorem runSteps_add {j : Nat} {s t : State} (h : runSteps j s = .next t) (k : Nat) :
    runSteps (j + k) s = runSteps k t := by
  induction j generalizing s with
  | zero => cases h; rw [Nat.zero_add]
  | succ j ih =>
    rw [Nat.succ_add]
    simp only [runSteps] at h ⊢
    match hs : step s with
    | .next u => simp only [hs] at h; exact ih h
    | .fault r => simp only [hs] at h; cases h
    | .refused r => simp only [hs] at h; cases h

/-- With nothing at the port a step changes nothing (log 5). -/
theorem step_of_port_nil {s : State} (h : s.port = []) : step s = .next s := by
  simp [step, fetch, h, decode, withoutCommand]

/-- With nothing at the port no number of steps changes anything. -/
theorem runSteps_of_port_nil {s : State} (h : s.port = []) (k : Nat) : runSteps k s = .next s := by
  induction k with
  | zero => rfl
  | succ k ih => rw [runSteps_succ (step_of_port_nil h), ih]

variable (r : Run)

@[simp] theorem Run.start_swfc : r.start.swfc = Swfc.reset := rfl
@[simp] theorem Run.start_params : r.start.params = r.params := rfl
@[simp] theorem Run.start_port : r.start.port = r.commands.flatMap Issued.bytes := rfl
@[simp] theorem Run.start_responses : r.start.responses = [] := rfl
@[simp] theorem Run.start_writes : r.start.writes = [] := rfl

/-- A run shows something after `k` steps exactly when each of its commands has responded by then. -/
theorem Run.observation_eq_some {r : Run} {k : Nat} {o : Observation} : r.observation k = some o ↔
    ∃ t, runSteps k r.start = .next t ∧ t.responses.length = r.commands.length ∧ observe t = o := by
  unfold Run.observation
  cases runSteps k r.start with
  | next t => simp
  | fault f => cases f
  | refused f => simp

end Sys2Proof.Machine
end

