-- ==== Sys2Proof/Tests/Slice0.lean ====
section
/-! SUPPORT. Tests on fixed values, their results from the vectors of 95_test_vectors.md and the words of 30_encoding.md R67,
and for every statement with hypotheses a witness that meets them. -/

namespace Sys2Proof.Machine

/-- The reset state with some bytes in RAW, at the port, and in the transport's next answers. -/
def rxState (raw port : List Byte) (reads : List ReadAnswer) : State :=
  { State.reset with swfc := { Swfc.reset with raw := raw }, port := port, env := { Env.reset with reads := reads } }

/-- The reset state with the gap armed until `ready`, the next clock draws, the last sample and the next write answers. -/
def txState (armed : Bool) (ready : Word) (last : Option Word) (clock : List Word) (answers : List WriteAnswer)
    (port : List Byte) : State :=
  { State.reset with
    swfc := { Swfc.reset with txArmed := armed, txReadyAt := ready }
    port := port
    env := { Env.reset with clock := clock, lastSample := last, writes := answers } }

/-- `CNT[0..7]` as numbers, as 95_test_vectors.md writes them. -/
def cntList (c : Counters) : List Nat :=
  [c.frames.toNat, c.filter.toNat, c.resync.toNat, c.trunc.toNat, c.purge.toNat, c.tx.toNat, c.txerr.toNat, c.rxerr.toNat]

/-- What a vector shows of a step: the responses' bytes, RAW, and the counters. -/
def shown : Host.Outcome State Fault Refusal → Option (List (List Byte) × List Byte × List Nat)
  | .next t => some (t.responses.map responseBytes, t.swfc.raw, cntList t.swfc.cnt)
  | .fault _ => none
  | .refused _ => none

/-- What a vector shows of a TXB: the responses' bytes, the wire bytes of each write, `TX_ARMED`, `TX_READY_AT`, and the
bytes left at the port. -/
def shownTx : Host.Outcome State Fault Refusal → Option (List (List Byte) × List (List Byte) × Bool × Word × List Byte)
  | .next t => some (t.responses.map responseBytes, t.writes.map wireBytes, t.swfc.txArmed, t.swfc.txReadyAt, t.port)
  | .fault _ => none
  | .refused _ => none

/-! ## Well-formedness: an ill-formed term for each check -/

theorem test_wellFormed_refuses_rdsr_11 : (Instr.rdsr 11).wellFormed = false ∧ (Instr.rdsr 255).wellFormed = false := by decide
theorem test_wellFormed_accepts_rdsr_10 : (Instr.rdsr 10).wellFormed = true ∧ (Instr.txb 255).wellFormed = true := by decide
theorem test_params_default_valid : Params.default.valid = true := by decide
theorem test_params_refuse_equal_positions : ({ Params.default with posHi := 2 } : Params).valid = false := by decide
theorem test_params_refuse_small_cap : ({ Params.default with rawCap := 3, rawTail := 2 } : Params).valid = false := by decide
theorem test_params_refuse_tail_at_cap : ({ Params.default with rawTail := 64 } : Params).valid = false := by decide
theorem test_params_refuse_long_gap : ({ Params.default with txGapMs := 2147483648 } : Params).valid = false := by decide

/-! ## Decoding: words written out from R67's pattern strings, bit by bit -/

theorem test_decode_control : decode [0b00000000#8, 0b00110001#8] = .ok (.nop, [0b00110001#8]) ∧
    decode [0b00110001#8] = .ok (.clrcnt, []) ∧ decode [0b11110000#8] = .ok (.srst, []) ∧
    decode [0b00110000#8, 0b00001001#8] = .ok (.rdsr 9, []) := by decide
theorem test_decode_codec : decode [0b00000001#8, 0b01101111#8] = .ok (.enc 0x6F, []) ∧
    decode [0b00000010#8, 0b11111111#8, 0b11111110#8, 0b11111011#8, 0b11011111#8] = .ok (.dec ⟨0xFF, 0xFE, 0xFB, 0xDF⟩, []) ∧
    decode [0b00000011#8, 0b11011011#8, 0b11011111#8, 0b11111111#8, 0b11011110#8] = .ok (.chk ⟨0xDB, 0xDF, 0xFF, 0xDE⟩, []) ∧
    decode [0b00000100#8, 0b11111011#8] = .ok (.valb 0xFB, []) := by decide
theorem test_decode_receive : decode [0b00010000#8] = .ok (.align, []) ∧ decode [0b00010001#8] = .ok (.rdfr, []) ∧
    decode [0b00010010#8] = .ok (.rxb, []) := by decide
theorem test_decode_transmit : decode [0b00100000#8, 0b01101011#8] = .ok (.txb 0x6B, []) := by decide
theorem test_decode_refuses : decode [0x05, 0x00] = .error (.illegalOpcode 0x05) ∧ decode [] = .error .noCommand ∧
    decode [0x02, 0xDB, 0xDB, 0xDB] = .error .incomplete := by decide
theorem test_decodeTableWord_numbers_bytes_upwards : decodeTableWord 16 0x6F01 = some (.enc 0x6F) ∧
    decodeTableWord 40 0xDFFBFEFF02 = some (.dec ⟨0xFF, 0xFE, 0xFB, 0xDF⟩) ∧ decodeTableWord 8 0x02 = some (.dec ⟨0, 0, 0, 0⟩) ∧
    decodeTableWord 8 0xFF = none := by decide
theorem test_withFetchWord_runs_next : shown (step (State.reset.withFetchWord 16 0x0A30)) =
    some ([[0x00, 0x00, 0x00, 0x00, 0x00]], [], [0, 0, 0, 0, 0, 0, 0, 0]) := by decide

/-! ## One step for each command (95_test_vectors.md sections 2 to 6) -/

theorem test_nop : shown (step (rxState [0xDB] [0x00] [])) = some ([[0x00]], [0xDB], [0, 0, 0, 0, 0, 0, 0, 0]) := by decide
theorem test_enc_o : shown (step (rxState [] [0x01, 0x6F] [])) =
    some ([[0x00, 0xFF, 0xFF, 0xFB, 0xDF]], [], [0, 0, 0, 0, 0, 0, 0, 0]) := by decide
theorem test_enc_bit7 : shown (step (rxState [] [0x01, 0x80] [])) =
    some ([[0x00, 0xDB, 0xDB, 0xDB, 0xFB]], [], [0, 0, 0, 0, 0, 0, 0, 0]) := by decide
theorem test_dec_o : shown (step (rxState [] [0x02, 0xFF, 0xFF, 0xFB, 0xDF] [])) =
    some ([[0x00, 0x6F]], [], [0, 0, 0, 0, 0, 0, 0, 0]) := by decide
theorem test_dec_invalid_frame : shown (step (rxState [] [0x02, 0x04, 0x20, 0x24, 0x00] [])) =
    some ([[0x00, 0x39]], [], [0, 0, 0, 0, 0, 0, 0, 0]) := by decide
theorem test_chk_base_bit_wrong : shown (step (rxState [] [0x03, 0xDB, 0xDB, 0xDB, 0xDA] [])) =
    some ([[0x00, 0x00]], [], [0, 0, 0, 0, 0, 0, 0, 0]) := by decide
theorem test_chk_valid : shown (step (rxState [] [0x03, 0xDF, 0xFB, 0xFF, 0xDB] [])) =
    some ([[0x00, 0x01]], [], [0, 0, 0, 0, 0, 0, 0, 0]) := by decide
theorem test_valb_fe : shown (step (rxState [] [0x04, 0xFE] [])) = some ([[0x00, 0x00]], [], [0, 0, 0, 0, 0, 0, 0, 0]) := by decide
theorem test_valb_fb : shown (step (rxState [] [0x04, 0xFB] [])) = some ([[0x00, 0x01]], [], [0, 0, 0, 0, 0, 0, 0, 0]) := by decide
theorem test_align_resync_loses_three : shown (step (rxState [0xDB, 0xDB, 0xDB, 0x00, 0xDF, 0xDF, 0xDF, 0xDF] [0x10] [])) =
    some ([[0x00, 0x01]], [0xDF, 0xDF, 0xDF, 0xDF], [0, 1, 3, 0, 0, 0, 0, 0]) := by decide
theorem test_align_filters_front_only : shown (step (rxState [0xFB, 0xFB, 0xFB, 0xFB, 0x00] [0x10] [])) =
    some ([[0x00, 0x01]], [0xFB, 0xFB, 0xFB, 0xFB, 0x00], [0, 0, 0, 0, 0, 0, 0, 0]) := by decide
/-- X5. -/
theorem test_rdfr_over_report : shown (step (rxState [] [0x11] [.data 6 ⟨0xDF, 0xDF, 0xFB, 0xFB⟩])) =
    some ([[0x00, 0xDF, 0xDF, 0xFB, 0xFB]], [], [1, 0, 0, 1, 0, 0, 0, 0]) := by decide
/-- X9. -/
theorem test_rdfr_read_failure_keeps_discards : shown (step (rxState [0x00, 0x11] [0x11] [.fail])) =
    some ([[0x02]], [], [0, 2, 0, 0, 0, 0, 0, 1]) := by decide
/-- P6, its second command. -/
theorem test_rawAppend_purges : shown (step { rxState [0xDB, 0xDF, 0xFB] [0x11] [.data 4 ⟨0xDF, 0xDF, 0xDF, 0xDF⟩] with
      params := { Params.default with rawCap := 5 } }) =
    some ([[0x01]], [0xDF, 0xDF, 0xDF], [0, 0, 0, 0, 1, 0, 0, 0]) := by decide
/-- X2. -/
theorem test_rxb_colon : shown (step (rxState [] [0x12] [.data 4 ⟨0xFB, 0xFB, 0xFF, 0xDB⟩])) =
    some ([[0x00, 0x3A]], [], [1, 0, 0, 0, 0, 0, 0, 0]) := by decide
/-- X10, its command RXB. -/
theorem test_rxb_invalid_byte_costs_three : shown (step (rxState [0xDB, 0xDB, 0xDB] [0x12] [.data 4 ⟨0x5F, 0xDB, 0xDB, 0xDB⟩])) =
    some ([[0x01]], [0xDB, 0xDB, 0xDB], [0, 1, 3, 0, 0, 0, 0, 0]) := by decide
/-- Section 5: `TXB 0xFF` at `t = 0xFFFFFFFC`. -/
theorem test_txb_ready_at_wraps : shownTx (step (txState false 0 none [0xFFFFFFFC] [.success] [0x20, 0xFF])) =
    some ([[0x00]], [[0xFF, 0xFF, 0xFF, 0xFF]], true, 0x00000004, []) := by decide
/-- Section 5: a failed write, of which 2 bytes are emitted. -/
theorem test_txb_write_failure_arms : shownTx (step (txState false 0 none [1000] [.failure 2] [0x20, 0x00])) =
    some ([[0x03]], [[0xDB, 0xDB]], true, 1008, []) := by decide
/-- P1: the second TXB at sample 1003. -/
theorem test_txb_holds : shownTx (step (txState true 1008 (some 1000) [3] [.success] [0x20, 0x6B, 0x30, 0x05])) =
    some ([], [], true, 1008, [0x20, 0x6B, 0x30, 0x05]) := by decide
/-- The gap table of section 5, row by row. -/
theorem test_txWait_table : txWait Params.default (txState false 0 none [] [] []).swfc 0x5 = false ∧
    ([0x3E8, 0x3EF, 0x3F0, 0x3F1, 0x800003F0] : List Word).map
      (txWait Params.default (txState true 0x3F0 none [] [] []).swfc) = [true, true, false, false, false] ∧
    ([0xFFFFFFFC, 0xFFFFFFFD, 0x3, 0x4] : List Word).map
      (txWait Params.default (txState true 0x4 none [] [] []).swfc) = [true, true, true, false] ∧
    txWait { Params.default with txGapMs := 0 } (txState true 0x3F0 none [] [] []).swfc 0x3EC = false := by decide
theorem test_after_table : ([0x3E8, 0x3EF, 0x3F0, 0x3F1, 0x800003F0] : List Word).map (fun t => after t 0x3F0) =
    [false, false, true, true, false] := by decide
/-- Section 6: RDSR 9 after P1. -/
theorem test_rdsr_little_endian : shown (step { txState true 1046 none [] [] [] with port := [0x30, 0x09] }) =
    some ([[0x00, 0x16, 0x04, 0x00, 0x00]], [], [0, 0, 0, 0, 0, 0, 0, 0]) := by decide
theorem test_rdsr_11_illegal : shown (step (rxState [0xDB] [0x30, 0x0B] [])) =
    some ([[0x0F]], [0xDB], [0, 0, 0, 0, 0, 0, 0, 0]) := by decide
/-- Section 6: `CNT[1] = 3`, CLRCNT. -/
theorem test_clrcnt : shown (step { rxState [0xDB] [0x31] [] with
      swfc := { raw := [0xDB], cnt := { Counters.zero with filter := 3 }, txArmed := true, txReadyAt := 5 } }) =
    some ([[0x00]], [0xDB], [0, 0, 0, 0, 0, 0, 0, 0]) := by decide
/-- Section 6: `RAW = DB DB`, `TX_ARMED = 1`, SRST. -/
theorem test_srst : shown (step { rxState [] [0xF0] [] with
      swfc := { raw := [0xDB, 0xDB], cnt := { Counters.zero with filter := 3 }, txArmed := true, txReadyAt := 5 } }) =
    some ([[0x00]], [], [0, 0, 0, 0, 0, 0, 0, 0]) ∧
    (shownTx (step (txState true 5 none [] [] [0xF0]))).map (fun x => (x.2.2.1, x.2.2.2.1)) = some (false, 0) := by decide
theorem test_illegal_opcode_takes_one_byte : shownTx (step (rxState [] [0x07, 0x00] [])) =
    some ([[0x0F]], [], false, 0, [0x00]) := by decide
/-- R22: a counter wraps. -/
theorem test_counter_wraps : bump .filter { Counters.zero with filter := 0xFFFFFFFF } = Counters.zero := by decide
/-- R71, with a line of P1 and one of P7. -/
theorem test_listing_lines : assembleLine "TXB 'o'      ; 20 6F".toList = some [.txb 0x6F] ∧
    assembleLine "DEC FF FF FB DF".toList = some [.dec ⟨0xFF, 0xFF, 0xFB, 0xDF⟩] ∧
    assembleLine "RDSR CNT_TX".toList = some [.rdsr 5] ∧ assembleLine "TXB 6F".toList = none ∧
    assembleLine "ENC '''".toList = some [.enc 0x27] := by decide
/-- R72. -/
theorem test_listing_pseudo : assembleLine "RXN 2".toList = some [.rxb, .rxb] ∧
    assembleLine ("TXSTR ".toList ++ [stringChar, 'o', escapeChar, 'r', stringChar]) = some [.txb 0x6F, .txb 0x0D] := by decide

/-! ## Witnesses: for each statement with hypotheses, concrete values that meet them, clause by clause at the boundaries -/

theorem default_valid : Params.default.Valid := ⟨by decide, by decide, by decide, by decide⟩
theorem wireByte_DB : WireByte Params.default 0xDB := ⟨0x00, by decide⟩
theorem wireByte_FF : WireByte Params.default 0xFF := ⟨0xFF, by decide⟩

/-- No byte whose bit 0 is clear is a valid wire byte with the default parameters. -/
theorem not_wireByte_even {w : Byte} (h : w.getLsbD 0 = false) : ¬ WireByte Params.default w := by
  rintro ⟨b, hb⟩
  have key : ∀ i, (encByte Params.default b i).getLsbD 0 = true := fun i => by
    rw [encByte_getLsbD _ _ _ _ (by decide)]; rfl
  simp only [frameBytes, enc, List.mem_cons, List.not_mem_nil, or_false] at hb
  rcases hb with rfl | rfl | rfl | rfl <;> rw [key] at h <;> exact absurd h (by decide)

theorem witness_ResetPutsEveryComponentToItsResetValue : (0 : Byte).toNat ≤ 10 ∧ (10 : Byte).toNat ≤ 10 := by decide
theorem witness_StepRunsTheDecodedCommand : decode (rxState [] [0x30, 0x0A, 0x00] []).port = .ok (.rdsr 10, [0x00]) ∧
    (rxState [] [0x30, 0x0A, 0x00] []).port = encode (.rdsr 10) ++ [0x00] := by decide
theorem witness_IllegalOpcodeRespondsIllegal : (rxState [] [0x05, 0x00] []).port = 0x05 :: [0x00] ∧ ∀ c ∈ ([0x05, 0x13, 0xFF] : List Byte),
    c ∉ ([0x00, 0x01, 0x02, 0x03, 0x04, 0x10, 0x11, 0x12, 0x20, 0x30, 0x31, 0xF0] : List Byte) := by decide
theorem witness_PortWithoutAWholeCommandWaits : (rxState [] [] []).port = [] ∧ (rxState [] [0x30] []).port = 0x30 :: [] ∧
    0x30 ∈ ([0x01, 0x04, 0x20, 0x30] : List Byte) ∧ ([] : List Byte).length < 1 ∧
    (rxState [] [0x02, 1, 2, 3] []).port = 0x02 :: [1, 2, 3] ∧ 0x02 ∈ ([0x02, 0x03] : List Byte) ∧
    ([1, 2, 3] : List Byte).length < 4 := by decide
theorem witness_DecodingAnEncodedCommandGivesItBack : [Instr.nop, .txb 0x6F].flatMap encode = [Instr.nop, .txb 0x6F].flatMap encode ∧
    [Instr.nop, .txb 0x6F].flatMap encode = [0x00, 0x20, 0x6F] := by decide
theorem witness_DecodedBytesAreTheEncoding : decode [0x20, 0x6F, 0x00] = .ok (.txb 0x6F, [0x00]) := by decide
theorem witness_OpcodeByteAloneFixesTheLength : ([0x01] : List Byte).length < 2 ∧ ([0x01, 0x00] : List Byte).length = 2 ∧
    ([0x02, 1, 2, 3] : List Byte).length < 5 ∧ ([0x02, 1, 2, 3, 4] : List Byte).length = 5 ∧ ([0x05] : List Byte).length = 1 ∧
    (0x01 : Byte) ∈ ([0x01, 0x04, 0x20, 0x30] : List Byte) ∧ (0x02 : Byte) ∈ ([0x02, 0x03] : List Byte) ∧
    (0x05 : Byte) ∉ ([0x01, 0x04, 0x20, 0x30, 0x02, 0x03] : List Byte) := by decide
theorem witness_OnlyRdsrIndexesAreReserved : 11 ≤ (11 : Byte).toNat ∧ 11 ≤ (255 : Byte).toNat ∧ (10 : Byte).toNat ≤ 10 ∧
    (rxState [] [0x30, 0x0B, 0x00] []).port = 0x30 :: 0x0B :: [0x00] ∧
    ∃ t r, exec (.rdsr 10) State.reset = .next t ∧ t.responses = State.reset.responses ++ [r] ∧ r.status = .ok :=
  ⟨by decide, by decide, by decide, by decide, _, _, rfl, rfl, rfl⟩
theorem witness_EncInjectsThePayloadBits : State.reset.params.posLo ≠ State.reset.params.posHi ∧
    (frameBytes (enc State.reset.params 0x80))[3]? = some 0xFB ∧ 7 ≠ State.reset.params.posLo.val ∧
    7 ≠ State.reset.params.posHi.val := by decide
theorem witness_DecExtractsThePayloadBits : [(0x04 : Byte), 0x20, 0x24, 0x00][3]? = some 0x00 := by decide
theorem witness_DecodingAnEncodedByteGivesItBack : Params.default.posLo ≠ Params.default.posHi := by decide
theorem witness_EncIsABijectionOntoTheValidFrames : Params.default.posLo ≠ Params.default.posHi ∧
    rtOk Params.default ⟨0xDF, 0xFB, 0xFF, 0xDB⟩ = true ∧ enc Params.default 0x39 = ⟨0xDF, 0xFB, 0xFF, 0xDB⟩ := by decide
theorem witness_ChkTellsTheEncodedFrames : (∃ b, enc State.reset.params b = ⟨0xDF, 0xFB, 0xFF, 0xDB⟩) ∧
    ¬ ∃ b, enc State.reset.params b = ⟨0xDB, 0xDB, 0xDB, 0xDA⟩ :=
  ⟨⟨0x39, by decide⟩, fun ⟨b, hb⟩ => not_wireByte_even (w := 0xDA) (by decide)
    ⟨b, by rw [show Params.default = State.reset.params from rfl, hb]; decide⟩⟩
theorem witness_ValbTellsTheBytesOfEncodings : WireByte State.reset.params 0xDB ∧ ¬ WireByte State.reset.params 0xFE :=
  ⟨wireByte_DB, not_wireByte_even (by decide)⟩
theorem witness_ExactlyFourBytesAreValid : Params.default.posLo ≠ Params.default.posHi ∧ 3 < 4 ∧ WireByte Params.default 0xFF :=
  ⟨by decide, by decide, wireByte_FF⟩
theorem witness_AlignScansFromTheFront_invalid : (rxState [0x00, 0xDB] [] []).swfc.raw = 0x00 :: [0xDB] ∧
    ¬ WireByte (rxState [0x00, 0xDB] [] []).params 0x00 := ⟨rfl, not_wireByte_even (by decide)⟩
theorem witness_AlignScansFromTheFront_short : (rxState [0xDB, 0x00, 0x00] [] []).swfc.raw.length < 4 ∧
    ∀ w rest, (rxState [0xDB, 0x00, 0x00] [] []).swfc.raw = w :: rest → WireByte (rxState [0xDB, 0x00, 0x00] [] []).params w :=
  ⟨by decide, fun w rest h => (List.cons.inj h).1 ▸ wireByte_DB⟩
theorem witness_AlignScansFromTheFront_trial : WireByte Params.default 0xDB ∧
    enc Params.default (dec Params.default ⟨0xDB, 0xDB, 0xDB, 0xDF⟩) = ⟨0xDB, 0xDB, 0xDB, 0xDF⟩ ∧
    enc Params.default (dec Params.default ⟨0xDB, 0xDB, 0xDB, 0x5F⟩) ≠ ⟨0xDB, 0xDB, 0xDB, 0x5F⟩ :=
  ⟨wireByte_DB, by decide, by decide⟩
theorem witness_AlignCountsEveryRemovedByte : (∃ t, exec .align (rxState [0x00, 0xDB] [] []) = .next t) ∧
    ¬ WireByte (rxState [0x00, 0xDB] [] []).params 0x00 ∧ rtOk Params.default ⟨0xDB, 0xDB, 0xDB, 0x5F⟩ = false :=
  ⟨⟨_, rfl⟩, not_wireByte_even (by decide), by decide⟩
theorem witness_RdfrAlignsReadsOnceAndExtracts_aligned : ∃ t, exec .align (rxState [0x00, 0xDB, 0xDB, 0xDB, 0xDF] [] []) = .next t ∧
    t.swfc.raw = frameBytes ⟨0xDB, 0xDB, 0xDB, 0xDF⟩ ++ [] := ⟨_, rfl, by decide⟩
theorem witness_RdfrAlignsReadsOnceAndExtracts_fail : ∃ t, exec .align (rxState [0x00, 0xDB, 0xDB, 0xDB] [] [.fail]) = .next t ∧
    t.swfc.raw.length < 4 ∧ (rxState [0x00, 0xDB, 0xDB, 0xDB] [] [.fail]).env.reads = .fail :: [] := ⟨_, rfl, by decide, rfl⟩
/-- The clause of a read with data: the `u` and `v` it speaks of exist, with a frame in front of `v` and, for the second
answer, with too few bytes. -/
theorem witness_RdfrAlignsReadsOnceAndExtracts_data :
    (∃ t v, exec .align (rxState [0xDB] [] [.data 5 ⟨0xDB, 0xDB, 0xDF, 0xFF⟩]) = .next t ∧ t.swfc.raw.length < 4 ∧
      exec .align (rxState (t.swfc.raw ++ [0xDB, 0xDB, 0xDF, 0xFF].take (min 5 4)) [] []) = .next v ∧
      v.swfc.raw = frameBytes ⟨0xDB, 0xDB, 0xDB, 0xDF⟩ ++ [0xFF]) ∧
    ∃ t v, exec .align (rxState [0xDB] [] [.data 2 ⟨0xDB, 0xDB, 0xDF, 0xFF⟩]) = .next t ∧ t.swfc.raw.length < 4 ∧
      exec .align (rxState (t.swfc.raw ++ [0xDB, 0xDB, 0xDF, 0xFF].take (min 2 4)) [] []) = .next v ∧ v.swfc.raw.length < 4 :=
  ⟨⟨_, _, rfl, by decide, rfl, by decide⟩, _, _, rfl, by decide, rfl, by decide⟩
theorem witness_UnlistedReadIsSomeAnswer : ∃ t, exec .align (rxState [0xDB] [] []) = .next t ∧ t.swfc.raw.length < 4 ∧
    (rxState [0xDB] [] []).env.reads = [] := ⟨_, rfl, by decide, rfl⟩
theorem witness_RxbIsRdfrDecoded : (rxState [0xDB] [] []).params.posLo ≠ (rxState [0xDB] [] []).params.posHi := by decide
theorem witness_RdfrReturnsOnlyEncodedFrames : ∃ t r, exec .rdfr (rxState [] [] [.data 4 ⟨0xFF, 0xFF, 0xFB, 0xDF⟩]) = .next t ∧
    t.responses = (rxState [] [] []).responses ++ [r] ∧ r.status = .ok := ⟨_, _, rfl, rfl, rfl⟩
theorem witness_RdfrConservesTheBytes : 7 ≤ (rxState [0xDB] [] [.fail]).params.rawCap ∧
    (rxState [0xDB] [] [.fail]).env.reads = .fail :: [] ∧ ∃ t, exec .rdfr (rxState [0xDB] [] [.fail]) = .next t :=
  ⟨by decide, rfl, _, rfl⟩
theorem witness_UndeliveredBytesDoNotMatter : (∃ t, exec .align (rxState [0xDB] [] []) = .next t ∧ t.swfc.raw.length < 4) ∧
    ∀ i < 2, [(0xDB : Byte), 0xDF, 0x00, 0x00][i]? = [(0xDB : Byte), 0xDF, 0xFF, 0x12][i]? :=
  ⟨⟨_, rfl, by decide⟩, by decide⟩
theorem witness_MisalignedFramesGoUndetected : ∀ k ≤ 3, (rxState ((frameBytes (enc Params.default 0x54) ++
    frameBytes (enc Params.default 0x31)).drop k) [] []).swfc.raw =
      (frameBytes (enc Params.default 0x54) ++ frameBytes (enc Params.default 0x31)).drop k := fun _ _ => rfl
/-- The stream of P2 without its last, empty answer. -/
def garbageState : State := rxState [] [0x12, 0x12, 0x12, 0x00]
  [.data 4 ⟨0x00, 0x12, 0x7E, 0xFF⟩, .data 4 ⟨0xFF, 0xFB, 0xDF, 0xFF⟩, .data 3 ⟨0xFB, 0xFB, 0xDF, 0x00⟩]

theorem witness_GarbagePrefixIsSkippedExactly : garbageState.params.Valid ∧ 7 ≤ garbageState.params.rawCap ∧
    garbageState.swfc.raw = [] ∧ (∀ w ∈ ([0x00, 0x12, 0x7E] : List Byte), ¬ WireByte garbageState.params w) ∧
    (∀ r ∈ garbageState.env.reads, r ≠ .fail) ∧
    garbageState.env.reads.flatMap readBytes =
      [0x00, 0x12, 0x7E] ++ [0x6F, 0x6B].flatMap (fun b => frameBytes (enc garbageState.params b)) ∧
    garbageState.port = List.replicate garbageState.env.reads.length 0x12 ++ [0x00] := by
  refine ⟨default_valid, by decide, rfl, fun w hw => not_wireByte_even ?_, by decide, by decide, by decide⟩
  revert w; decide
/-- First sample, at rest (P1's first TXB), and a later one exactly at the end of the gap, with a failed write. -/
theorem witness_TxbTransmitsWhenTheGapHasPassed :
    (txState false 0 none [1000] [.success] []).env.clock = 1000 :: [] ∧
    ¬ ((txState false 0 none [1000] [.success] []).swfc.txArmed = true ∧
      1 ≤ ((0 : Word) - 1000).toNat ∧ ((0 : Word) - 1000).toNat ≤ Params.default.txGapMs) ∧
    (txState true 1008 (some 1000) [8] [.failure 2] []).env.writes = .failure 2 :: [] ∧
    (1008 : Word) = 1000 + BitVec.ofNat 32 ((8 : Word).toNat % 2 ^ 31) ∧
    ¬ ((txState true 1008 (some 1000) [8] [.failure 2] []).swfc.txArmed = true ∧
      1 ≤ ((1008 : Word) - 1008).toNat ∧ ((1008 : Word) - 1008).toNat ≤ Params.default.txGapMs) := by decide
/-- At both ends of the gap: right at the write's own sample, and 1 ms before the gap is over. -/
theorem witness_TxbHoldsWithoutEffect : (txState true 1008 (some 1000) [7] [] [0x20, 0x6B]).port = 0x20 :: 0x6B :: [] ∧
    (1007 : Word) = 1000 + BitVec.ofNat 32 ((7 : Word).toNat % 2 ^ 31) ∧
    1 ≤ ((1008 : Word) - 1007).toNat ∧ ((1008 : Word) - 1007).toNat ≤ Params.default.txGapMs ∧
    (1000 : Word) = 1000 + BitVec.ofNat 32 ((0x80000000 : Word).toNat % 2 ^ 31) ∧
    1 ≤ ((1008 : Word) - 1000).toNat ∧ ((1008 : Word) - 1000).toNat ≤ Params.default.txGapMs := by decide
theorem witness_UnlistedTxbInputsAreSomeInputs : (txState false 0 none [] [] []).env.clock = [] ∧
    (txState false 0 none [1000] [] []).env.clock ≠ [] ∧ (txState false 0 none [1000] [] []).env.writes = [] ∧
    ∀ t, exec (.txb 0x6F) (txState false 0 none [1000] [] []) = .next t → t.writes ≠ (txState false 0 none [1000] [] []).writes := by
  refine ⟨rfl, by decide, rfl, fun t h => ?_⟩
  have e : exec (.txb 0x6F) (txState false 0 none [1000] [] []) =
      .next (transmit 0x6F 1000 (now (txState false 0 none [1000] [] [])).2) := rfl
  rw [e] at h
  cases h
  obtain ⟨a, e, he, -⟩ := transmit_state 0x6F 1000 (now (txState false 0 none [1000] [] [])).2
  rw [he]
  exact fun hw => List.cons_ne_nil _ _ hw
/-- A TXB held since its write's own sample; the next two samples together are exactly the gap. -/
def holdState : State := txState true 1008 (some 1000) [3, 5, 7] [.success] [0x20, 0x6B, 0x00]

theorem witness_EveryHoldEndsWhenTheClockAdvances : holdState.params.Valid ∧ holdState.port = 0x20 :: 0x6B :: [0x00] ∧
    holdState.swfc.txArmed = true ∧ holdState.env.lastSample = some 1000 ∧
    (holdState.swfc.txReadyAt - 1000).toNat ≤ holdState.params.txGapMs ∧ holdState.env.clock = [3, 5] ++ [7] ∧
    (holdState.swfc.txReadyAt - 1000).toNat ≤ (([3, 5] : List Word).map fun d => d.toNat % 2 ^ 31).sum :=
  ⟨default_valid, rfl, rfl, rfl, by decide, rfl, by decide⟩
theorem witness_WaitingAgreesWithAfterInTheNormalRange : Params.default.Valid ∧
    (txState true 1008 none [] [] []).swfc.txReadyAt = 1000 + BitVec.ofNat 32 Params.default.txGapMs ∧
    ((1000 : Word) - 1000).toNat < 2 ^ 31 + Params.default.txGapMs ∧
    ((0x800003EF : Word) - 1000).toNat = 2 ^ 31 + Params.default.txGapMs - 1 := ⟨default_valid, by decide, by decide, by decide⟩

/-- A state after one write at sample 1000, the gap armed, a TXB at the port and the next sample at the gap's end. -/
def writtenState : State :=
  { txState true 1008 (some 1000) [8] [.success] [0x20, 0x6B] with
    writes := [⟨enc Params.default 0x6F, .success, 1000⟩], responses := [⟨.ok, []⟩] }

theorem writtenState_inv : Inv writtenState where
  params := default_valid
  rawBounded := by decide
  txLinked := fun _ => ⟨_, rfl, rfl⟩
  formed := by
    intro r hr
    rw [List.mem_singleton.mp hr]
    exact ⟨.inl rfl, fun _ => rfl⟩
  encoded := by
    intro e he
    rw [List.mem_singleton.mp he]
    exact ⟨0x6F, rfl⟩

theorem witness_ConsecutiveWritesKeepTheGap : Inv writtenState ∧ writtenState.swfc.txArmed = true ∧
    writtenState.writes.getLast? = some ⟨enc Params.default 0x6F, .success, 1000⟩ ∧
    ∃ t, step writtenState = .next t ∧ t.writes ≠ writtenState.writes :=
  ⟨writtenState_inv, rfl, rfl, _, rfl, by decide⟩
theorem witness_EveryStepKeepsTheInvariant : Inv writtenState ∧ ∃ t, step writtenState = .next t := ⟨writtenState_inv, _, rfl⟩
theorem witness_ParametersNeverChange : ∃ t, step writtenState = .next t := ⟨_, rfl⟩
theorem witness_TxbAfterResetNeverHolds : ∃ t, exec .srst writtenState = .next t := ⟨_, rfl⟩
theorem witness_ClockSamplesAreMonotonicAndOnlyTxbs : (∃ t, exec (.txb 0x6B) writtenState = .next t) ∧
    writtenState.env.lastSample = some 1000 ∧ ∃ t, exec .rxb (rxState [] [] [.fail]) = .next t := ⟨⟨_, rfl⟩, rfl, _, rfl⟩
theorem witness_WriteEventsEmitTheFrameOrAPrefix : ([] : List Byte) <+: [0xDB, 0xDF, 0xFB, 0xFF] ∧
    [0xDB, 0xDF] <+: ([0xDB, 0xDF, 0xFB, 0xFF] : List Byte) ∧
    [0xDB, 0xDF, 0xFB, 0xFF] <+: ([0xDB, 0xDF, 0xFB, 0xFF] : List Byte) := by decide
theorem witness_RdsrReturnsTheNamedRegister : (10 : Byte).toNat ≤ 10 ∧ 11 ≤ (11 : Byte).toNat ∧ 11 ≤ (255 : Byte).toNat := by decide
theorem witness_PureCommandsChangeNothing : (Instr.dec ⟨0, 0, 0, 0⟩).op ∈ [Op.nop, Op.enc, Op.dec, Op.chk, Op.valb, Op.rdsr] ∧
    ∃ t, exec (.dec ⟨0, 0, 0, 0⟩) writtenState = .next t := ⟨by decide, _, rfl⟩
theorem witness_ReceiveCommandsLeaveTheTransmitSide : Instr.rxb.op ∈ [Op.align, Op.rdfr, Op.rxb] ∧
    ∃ t, exec .rxb (rxState [] [] [.fail]) = .next t := ⟨by decide, _, rfl⟩
theorem witness_TxbLeavesTheReceiveSide : ∃ t, exec (.txb 0x6B) writtenState = .next t := ⟨_, rfl⟩
theorem witness_ResponsesFollowTheCommandMap : ∃ t r, exec .rxb (rxState [] [] [.fail]) = .next t ∧
    t.responses = (rxState [] [] [.fail]).responses ++ [r] := ⟨_, _, rfl, rfl⟩
theorem witness_OnlyTheNamedEventsCount : Instr.rdfr ≠ .clrcnt ∧ Instr.rdfr ≠ .srst ∧
    ∃ t, exec .rdfr (rxState [] [] [.fail]) = .next t := ⟨by decide, by decide, _, rfl⟩
/-- A state that differs from `rxState [] [0x30, 0x08] []` in a counter. -/
def countedState : State :=
  { rxState [] [0x30, 0x08] [] with swfc := { Swfc.reset with cnt := { Counters.zero with frames := 7 } } }

theorem witness_CountersNeverInfluenceBehaviour : SameButCounters (rxState [] [0x30, 0x08] []) countedState ∧
    (∃ t, step (rxState [] [0x30, 0x08] []) = .next t) ∧
    ∀ idx rest, decode (rxState [] [0x30, 0x08] []).port = .ok (.rdsr idx, rest) → 8 ≤ idx.toNat := by
  refine ⟨rfl, ⟨_, rfl⟩, fun idx rest h => ?_⟩
  have e : decode (rxState [] [0x30, 0x08] []).port = .ok (.rdsr 8, []) := rfl
  rw [e] at h
  cases h
  decide
/-- A state at the boundary of the cap, where a read comes. -/
def capSevenState : State := { rxState [0xDB, 0xDB, 0xDB] [0x11] [.data 4 ⟨0xDB, 0xDB, 0xDB, 0xDB⟩] with
  params := { Params.default with rawCap := 7 } }

theorem witness_NoPurgeFromCapSevenUp : 7 ≤ capSevenState.params.rawCap ∧ ∃ t, step capSevenState = .next t := ⟨by decide, _, rfl⟩
theorem witness_PseudoInstructionsExpand :
    (∀ p ∈ ([(['o'], 0x6F), ([';'], 0x3B), ([escapeChar, 'r'], 0x0D), ([escapeChar, 'n'], 0x0A)] : List (List Char × Byte)),
      (∃ c : Char, c.toNat < 128 ∧ c.toNat ≠ 34 ∧ c.toNat ≠ 92 ∧ p = ([c], BitVec.ofNat 8 c.toNat)) ∨
        p = ([escapeChar, 'r'], 0x0D) ∨ p = ([escapeChar, 'n'], 0x0A)) ∧
    ([6] : List (Fin 10)) ≠ [] := by
  refine ⟨fun p hp => ?_, by decide⟩
  simp only [List.mem_cons, List.not_mem_nil, or_false] at hp
  rcases hp with rfl | rfl | rfl | rfl
  · exact .inl ⟨'o', by simp, by simp, by simp, by decide⟩
  · exact .inl ⟨';', by simp, by simp, by simp, by decide⟩
  · exact .inr (.inl rfl)
  · exact .inr (.inr rfl)

/-- A run of an illegal opcode and a TXB whose write fails after 2 bytes. -/
def failingRun : Run :=
  { params := Params.default, commands := [.illegal 0x07, .command (.txb 0x00)], reads := [], writes := [.failure 2],
    clock := [1000] }

/-- Sections 5 and 6: the responses, the end state and the history of `failingRun`, after its two commands and not before. -/
theorem test_run_observation : failingRun.observation 1 = none ∧ failingRun.observation 2 = some
    { responses := [⟨.illegal, []⟩, ⟨.txerr, []⟩]
      swfc := { raw := [], cnt := { Counters.zero with txerr := 1 }, txArmed := true, txReadyAt := 1008 }
      writes := [⟨⟨0xDB, 0xDB, 0xDB, 0xDB⟩, false, 1000⟩] } := by decide
theorem witness_RunEndsWithOneObservation : (∀ c ∈ failingRun.commands, c.wellFormed = true) ∧
    (failingRun.observation 2).isSome = true ∧ (failingRun.observation 3).isSome = true ∧
    ∀ b, Issued.command (.txb b) ∉ { failingRun with commands := [.illegal 0x07] }.commands := by
  refine ⟨by decide, by decide, by decide, fun b h => ?_⟩
  cases List.mem_singleton.mp h
theorem witness_ObservationHidesTheEmittedPrefix : failingRun.writes.map writeOk = [WriteAnswer.failure 0].map writeOk := by decide

end Sys2Proof.Machine
end

section
/-! The decoder read backwards from the opcode byte: which bytes name a command, how long each command is, and what a
step does with what the decoder answers (30_encoding.md R64, R68, R70). -/

namespace Sys2Proof

/-- The 12 opcode bytes of R67's table. -/
def opcodeBytes : List Byte := [0x00, 0x01, 0x02, 0x03, 0x04, 0x10, 0x11, 0x12, 0x20, 0x30, 0x31, 0xF0]

theorem code_mem_opcodeBytes (o : Op) : o.code ∈ opcodeBytes := by cases o <;> decide

theorem opOf_isSome_of_mem : ∀ c ∈ opcodeBytes, (opOf c).isSome := by decide

/-- The bytes that name no command are those outside the table (R68). -/
theorem opOf_eq_none_iff {c : Byte} : opOf c = none ↔ c ∉ opcodeBytes := by
  constructor
  · intro h hc
    simpa [h] using opOf_isSome_of_mem c hc
  · intro h
    cases ho : opOf c with
    | none => rfl
    | some o => exact absurd (code_of_opOf ho ▸ code_mem_opcodeBytes o) h

/-- Of the 256 byte values all but the 12 of the table are illegal (R68). -/
theorem count_illegalOpcodes :
    ((List.finRange 256).filter fun k => decide (BitVec.ofFin k ∉ opcodeBytes)).length = 244 := by
  have hlegal : ((List.finRange 256).filter fun k => decide (BitVec.ofFin k ∈ opcodeBytes)).Perm
      (opcodeBytes.map BitVec.toFin) := by
    refine (List.perm_ext_iff_of_nodup ((List.nodup_finRange 256).filter _) (by decide)).mpr fun k => ?_
    rw [List.mem_filter, decide_eq_true_iff, List.mem_map]
    constructor
    · rintro ⟨-, hk⟩
      exact ⟨_, hk, rfl⟩
    · rintro ⟨c, hc, rfl⟩
      exact ⟨List.mem_finRange _, hc⟩
  have h12 : opcodeBytes.length = 12 := rfl
  have hsplit := List.length_eq_countP_add_countP (fun k => decide (BitVec.ofFin k ∈ opcodeBytes))
    (l := List.finRange 256)
  simp only [List.countP_eq_length_filter, hlegal.length_eq, List.length_finRange, List.length_map,
    decide_eq_true_eq, h12] at hsplit
  omega

theorem commandLength_of_opOf_eq_none {c : Byte} (h : opOf c = none) : commandLength c = 1 := by
  simp [commandLength, h]

theorem commandLength_of_opOf_eq_some {c : Byte} {o : Op} (h : opOf c = some o) :
    commandLength c = formLength o.form := by
  simp [commandLength, h]

/-- R70's lengths in numbers. -/
theorem commandLength_eq (c : Byte) : commandLength c =
    if c ∈ ([0x01, 0x04, 0x20, 0x30] : List Byte) then 2
    else if c ∈ ([0x02, 0x03] : List Byte) then 5 else 1 := by
  cases h : opOf c with
  | none =>
    have hc := opOf_eq_none_iff.mp h
    have hbyte : [0x01, 0x04, 0x20, 0x30] ⊆ opcodeBytes := by decide
    have hframe : [0x02, 0x03] ⊆ opcodeBytes := by decide
    rw [commandLength_of_opOf_eq_none h, if_neg fun hm => hc (hbyte hm), if_neg fun hm => hc (hframe hm)]
  | some o =>
    rw [← code_of_opOf h]
    cases o <;> rfl

/-- The three ways a command's operands are read, one per form (R64). -/
theorem readOperands_cases (o : Op) :
    (o.form = .none ∧ ∃ i, ∀ cs, readOperands o cs = some (i, cs)) ∨
    (o.form = .byte ∧ ∃ mk : Byte → Instr, ∀ cs,
      readOperands o cs = (takeByte cs).map fun x => (mk x.1, x.2)) ∨
    (o.form = .frame ∧ ∃ mk : Frame → Instr, ∀ cs,
      readOperands o cs = (takeFrame cs).map fun x => (mk x.1, x.2)) := by
  cases o
  case nop | align | rdfr | rxb | clrcnt | srst => exact .inl ⟨rfl, _, fun _ => rfl⟩
  case enc | valb | txb | rdsr => exact .inr (.inl ⟨rfl, _, fun _ => rfl⟩)
  case dec | chk => exact .inr (.inr ⟨rfl, _, fun _ => rfl⟩)

/-- With fewer bytes than the command's length no operands are read. -/
theorem readOperands_eq_none {o : Op} {cs : List Byte} (h : cs.length + 1 < formLength o.form) :
    readOperands o cs = none := by
  rcases readOperands_cases o with ⟨hf, i, hr⟩ | ⟨hf, mk, hr⟩ | ⟨hf, mk, hr⟩ <;>
    simp only [hf, formLength] at h
  · omega
  · have hcs : cs = [] := List.eq_nil_of_length_eq_zero (by omega)
    simp [hr, hcs, takeByte]
  · have hcs : takeFrame cs = none := takeFrame_eq_none.mpr (by omega)
    simp [hr, hcs]

/-- With at least that many bytes a command is read, and what is left is exactly the bytes after it. -/
theorem readOperands_eq_some {o : Op} {cs : List Byte} (h : formLength o.form ≤ cs.length + 1) :
    ∃ i, readOperands o cs = some (i, cs.drop (formLength o.form - 1)) := by
  rcases readOperands_cases o with ⟨hf, i, hr⟩ | ⟨hf, mk, hr⟩ | ⟨hf, mk, hr⟩ <;>
    simp only [hf, formLength] at h ⊢
  · exact ⟨i, hr cs⟩
  · match cs, h with
    | b :: rest, _ => exact ⟨mk b, hr _⟩
  · match cs, h with
    | b0 :: b1 :: b2 :: b3 :: rest, _ => exact ⟨mk ⟨b0, b1, b2, b3⟩, hr _⟩

theorem decode_of_opOf_eq_none {c : Byte} (h : opOf c = none) (cs : List Byte) :
    decode (c :: cs) = .error (.illegalOpcode c) := by
  simp [decode, h]

theorem decode_incomplete {c : Byte} {cs : List Byte} (h : (c :: cs).length < commandLength c) :
    decode (c :: cs) = .error .incomplete := by
  cases ho : opOf c with
  | none => simp [commandLength_of_opOf_eq_none ho] at h
  | some o =>
    rw [commandLength_of_opOf_eq_some ho] at h
    simp [decode, ho, readOperands_eq_none h]

theorem decode_complete {c : Byte} {o : Op} (ho : opOf c = some o) {cs : List Byte}
    (h : commandLength c ≤ (c :: cs).length) :
    ∃ i, decode (c :: cs) = .ok (i, (c :: cs).drop (commandLength c)) := by
  rw [commandLength_of_opOf_eq_some ho] at h ⊢
  obtain ⟨i, hi⟩ := readOperands_eq_some h
  have hdrop : (c :: cs).drop (formLength o.form) = cs.drop (formLength o.form - 1) := by
    cases o.form <;> rfl
  exact ⟨i, by simp [decode, ho, hi, hdrop]⟩

end Sys2Proof

namespace Sys2Proof.Machine

theorem step_of_decode_eq_ok {s : State} {i : Instr} {rest : List Byte} (h : decode s.port = .ok (i, rest)) :
    step s = exec i { s with port := rest } := by
  simp [step, fetch, h]

theorem step_of_decode_eq_error {s : State} {e : DecodeError} (h : decode s.port = .error e) :
    step s = .next (withoutCommand e s) := by
  simp [step, fetch, h]

/-- An illegal opcode byte is taken alone and reported (R68). -/
theorem step_of_illegalOpcode {s : State} {c : Byte} {cs : List Byte} (hp : s.port = c :: cs) (hc : c ∉ opcodeBytes) :
    step s = .next (reportIllegal { s with port := cs }) := by
  have hd : decode s.port = .error (.illegalOpcode c) := by
    rw [hp, decode_of_opOf_eq_none (opOf_eq_none_iff.mpr hc)]
  rw [step_of_decode_eq_error hd]
  simp [withoutCommand, hp]

/-- Settles O4: a byte outside R67's table names no command, so the step is the report of R68; the 244 are
what the table leaves of 256. -/
theorem illegalOpcodeRespondsIllegal : Obligations.IllegalOpcodeRespondsIllegal :=
  ⟨fun _ _ _ hp hc => step_of_illegalOpcode hp hc, count_illegalOpcodes⟩

/-- Settles O9, by what the opcode byte names: nothing (length 1) or a command, whose form fixes its length. -/
theorem opcodeByteAloneFixesTheLength : Obligations.OpcodeByteAloneFixesTheLength := by
  intro c cs n hn
  obtain rfl : n = commandLength c := hn.trans (commandLength_eq c).symm
  refine ⟨rfl, decode_incomplete, fun hlen => ?_⟩
  cases ho : opOf c with
  | none => exact .inr ⟨commandLength_of_opOf_eq_none ho, decode_of_opOf_eq_none ho cs⟩
  | some o => exact .inl (decode_complete ho hlen)

end Sys2Proof.Machine
end

section
/-! Which commands can respond `ILLEGAL` (R68, R69): RDSR with a reserved index, and no other. -/

namespace Sys2Proof.Machine

/-- The indexes that name no status register (R23, R69). -/
theorem statusReg_eq_none_iff {m : Swfc} {idx : Byte} : statusReg m idx = none ↔ 11 ≤ idx.toNat := by
  unfold statusReg
  generalize idx.toNat = n
  rcases Nat.lt_or_ge n 11 with h | h
  · interval_cases n <;> simp
  · obtain ⟨k, rfl⟩ := Nat.exists_eq_add_of_le' h
    simp

/-- RDSR with a reserved index reports an illegal command (R69). -/
theorem exec_rdsr_reserved {idx : Byte} (h : 11 ≤ idx.toNat) (s : State) :
    exec (.rdsr idx) s = .next (reportIllegal s) := by
  simp [exec, execRdsr, statusReg_eq_none_iff.mpr h]

/-- RDSR with any other index responds OK with the register it names (R141). -/
theorem exec_rdsr_named {idx : Byte} (h : idx.toNat ≤ 10) (s : State) :
    ∃ v, statusReg s.swfc idx = some v ∧ exec (.rdsr idx) s = .next (respond .ok (le32 v) s) := by
  have hne : statusReg s.swfc idx ≠ none := fun hnone => by
    have := statusReg_eq_none_iff.mp hnone
    omega
  obtain ⟨v, hv⟩ := Option.ne_none_iff_exists'.mp hne
  exact ⟨v, hv, by simp [exec, execRdsr, hv]⟩

/-- RDFR's body responds nothing by itself (R106). -/
@[simp] theorem readFrame_responses (s : State) : (readFrame s).2.responses = s.responses := by
  obtain ⟨raw, cnt, reads, draws, h⟩ := readFrame_frame s
  rw [h]

theorem readFrame_error_ne_illegal {s : State} {st : Status} (h : (readFrame s).1 = .error st) : st ≠ .illegal := by
  rcases readFrame_status h with rfl | rfl <;> decide

@[simp] theorem now_responses (s : State) : (now s).2.responses = s.responses := by
  obtain ⟨e, h, -⟩ := now_state s
  rw [h]

/-- RDFR responds once, after its body, and never `ILLEGAL` (R106). -/
theorem exec_rdfr_eq (s : State) :
    ∃ st d, st ≠ .illegal ∧ exec .rdfr s = .next (respond st d (readFrame s).2) := by
  cases h : (readFrame s).1 with
  | ok f => exact ⟨.ok, frameBytes f, by decide, by simp [exec, execRdfr, h]⟩
  | error st => exact ⟨st, [], readFrame_error_ne_illegal h, by simp [exec, execRdfr, h]⟩

/-- RXB responds once, after RDFR's body, and never `ILLEGAL` (R107). -/
theorem exec_rxb_eq (s : State) :
    ∃ st d, st ≠ .illegal ∧ exec .rxb s = .next (respond st d (readFrame s).2) := by
  cases h : (readFrame s).1 with
  | ok f => exact ⟨.ok, [dec s.params f], by decide, by simp [exec, execRxb, h]⟩
  | error st => exact ⟨st, [], readFrame_error_ne_illegal h, by simp [exec, execRxb, h]⟩

/-- TXB samples the clock once, then holds or transmits (R130, R131). -/
theorem exec_txb_cases (b : Byte) (s : State) :
    (txWait s.params s.swfc (now s).1 = true ∧ exec (.txb b) s = .next (hold (.txb b) (now s).2)) ∨
    (txWait s.params s.swfc (now s).1 = false ∧ exec (.txb b) s = .next (transmit b (now s).1 (now s).2)) := by
  cases h : txWait s.params s.swfc (now s).1 with
  | true => exact .inl ⟨rfl, by simp [exec, execTxb, h]⟩
  | false => exact .inr ⟨rfl, by simp [exec, execTxb, h]⟩

/-- From `s` the outcome `o` is a next state that shows at most one more response, which is not `ILLEGAL`. -/
def AnswersLegally (s : State) (o : Host.Outcome State Fault Refusal) : Prop :=
  ∃ t, o = .next t ∧ (t.responses = s.responses ∨ ∃ r, r.status ≠ .illegal ∧ t.responses = s.responses ++ [r])

theorem answersLegally_respond {s u : State} {st : Status} (d : List Byte) (hst : st ≠ .illegal)
    (hu : u.responses = s.responses) : AnswersLegally s (.next (respond st d u)) :=
  ⟨_, rfl, .inr ⟨⟨st, d⟩, hst, by simp [hu]⟩⟩

theorem answersLegally_txb (b : Byte) (s : State) : AnswersLegally s (exec (.txb b) s) := by
  rcases exec_txb_cases b s with ⟨-, h⟩ | ⟨-, h⟩ <;> rw [h]
  · exact ⟨_, rfl, .inl (by simp)⟩
  · obtain ⟨a, e, ht, -⟩ := transmit_state b (now s).1 (now s).2
    rw [ht]
    refine ⟨_, rfl, .inr ⟨⟨if writeOk a then .ok else .txerr, []⟩, ?_, by rw [now_responses]⟩⟩
    cases writeOk a <;> decide

/-- No command but RDSR with a reserved index responds `ILLEGAL` (R69). -/
theorem exec_answersLegally {i : Instr} (h : ∀ idx, i = .rdsr idx → idx.toNat ≤ 10) (s : State) :
    AnswersLegally s (exec i s) := by
  cases i
  case nop | enc | dec | chk | valb | clrcnt | srst => exact answersLegally_respond _ (by decide) rfl
  case align => exact answersLegally_respond _ (by decide) (alignProc_responses s)
  case rdfr =>
    obtain ⟨st, d, hst, he⟩ := exec_rdfr_eq s
    exact he ▸ answersLegally_respond d hst (readFrame_responses s)
  case rxb =>
    obtain ⟨st, d, hst, he⟩ := exec_rxb_eq s
    exact he ▸ answersLegally_respond d hst (readFrame_responses s)
  case txb b => exact answersLegally_txb b s
  case rdsr idx =>
    obtain ⟨v, -, he⟩ := exec_rdsr_named (h idx rfl) s
    exact he ▸ answersLegally_respond _ (by decide) rfl

theorem AnswersLegally.status_ne_illegal {s : State} {o : Host.Outcome State Fault Refusal} (h : AnswersLegally s o) :
    ∃ t, o = .next t ∧ ∀ r, t.responses = s.responses ++ [r] → r.status ≠ .illegal := by
  obtain ⟨t, ho, ht | ⟨r', hr', ht⟩⟩ := h <;> refine ⟨t, ho, fun r hr => ?_⟩
  · simp [ht] at hr
  · obtain rfl : r' = r := by simpa [ht] using hr
    exact hr'

theorem wellFormed_iff (i : Instr) : i.wellFormed = true ↔ ∀ idx, i = .rdsr idx → idx.toNat ≤ 10 := by
  cases i <;> simp [Instr.wellFormed]

/-- Settles O10: a reserved index names no status register, and no other command reaches the report of `ILLEGAL`. -/
theorem onlyRdsrIndexesAreReserved : Obligations.OnlyRdsrIndexesAreReserved := by
  refine ⟨fun s idx rest hidx hp => ?_, fun i s hi => (exec_answersLegally hi s).status_ne_illegal, wellFormed_iff⟩
  have hd : decode s.port = .ok (.rdsr idx, rest) := by rw [hp]; rfl
  rw [step_of_decode_eq_ok hd, exec_rdsr_reserved hidx]
  rfl

end Sys2Proof.Machine
end

section
/-! The valid wire bytes (R61): the definition, the mask test, and how many there are. -/

namespace Sys2Proof.Machine

theorem mem_frameBytes_enc {p : Params} {b w : Byte} :
    w ∈ frameBytes (enc p b) ↔ ∃ i < 4, encByte p b i = w := by
  constructor
  · intro h
    simp only [frameBytes, enc, List.mem_cons, List.not_mem_nil, or_false] at h
    rcases h with rfl | rfl | rfl | rfl
    exacts [⟨0, by decide, rfl⟩, ⟨1, by decide, rfl⟩, ⟨2, by decide, rfl⟩, ⟨3, by decide, rfl⟩]
  · rintro ⟨i, hi, rfl⟩
    interval_cases i <;> simp [frameBytes, enc]

theorem frameBytes_enc_getElem? (p : Params) (b : Byte) {i : Nat} (hi : i < 4) :
    (frameBytes (enc p b))[i]? = some (encByte p b i) := by
  interval_cases i <;> rfl

/-- Every byte of an encoding has the base's bits outside the mask (R61, R80). -/
theorem validByte_encByte (p : Params) (b : Byte) (i : Nat) : validByte p (encByte p b i) = true := by
  rw [validByte_iff]
  intro j hj hlo hhi
  simp [encByte_getLsbD p b i j hj, hlo, hhi]

/-- A valid byte is what the two payload bits it carries encode to, at any position: one base pattern serves every
frame byte (R61). -/
theorem encByte_decByte {p : Params} {w : Byte} (hw : validByte p w = true) {i : Nat} (hi : i < 4) :
    encByte p (decByte p w i) i = w := by
  apply BitVec.eq_of_getLsbD_eq
  intro j hj
  have hlo : (decByte p w i).getLsbD (2 * i) = w.getLsbD p.posLo.val := by
    rw [decByte_getLsbD p w i _ (by omega)]; simp
  have hhi : (decByte p w i).getLsbD (2 * i + 1) = w.getLsbD p.posHi.val := by
    rw [decByte_getLsbD p w i _ (by omega)]; simp
  rw [encByte_getLsbD p _ i j hj, hlo, hhi]
  by_cases h1 : j = p.posLo.val <;> by_cases h2 : j = p.posHi.val
  · simp [← h1, ← h2]
  · subst h1; simp [h2]
  · subst h2; simp [h1]
  · simp [h1, h2, (validByte_iff p w).mp hw j hj h1 h2]

/-- R61's definition and the mask test it derives agree (log 8). -/
theorem wireByte_iff_validByte {p : Params} {w : Byte} : WireByte p w ↔ validByte p w = true := by
  constructor
  · rintro ⟨b, hb⟩
    obtain ⟨i, -, rfl⟩ := mem_frameBytes_enc.mp hb
    exact validByte_encByte p b i
  · intro hw
    exact ⟨decByte p w 0, mem_frameBytes_enc.mpr ⟨0, by decide, encByte_decByte hw (by decide)⟩⟩

theorem wireByte_iff_mask (p : Params) (w : Byte) :
    WireByte p w ↔ w &&& ~~~(codecMask p) = p.base &&& ~~~(codecMask p) := by
  rw [wireByte_iff_validByte, validByte, beq_iff_eq]

/-- A valid byte stands at every frame position of some encoding. -/
theorem WireByte.exists_at {p : Params} {w : Byte} (hw : WireByte p w) {i : Nat} (hi : i < 4) :
    ∃ b, (frameBytes (enc p b))[i]? = some w :=
  ⟨decByte p w i, by rw [frameBytes_enc_getElem? p _ hi, encByte_decByte (wireByte_iff_validByte.mp hw) hi]⟩

/-- The wire byte that carries two given payload bits. -/
def wireByteOf (p : Params) (v : BitVec 2) : Byte := encByte p (v.setWidth 8) 0

theorem wireByteOf_posLo {p : Params} (hp : p.posLo ≠ p.posHi) (v : BitVec 2) :
    (wireByteOf p v).getLsbD p.posLo.val = v.getLsbD 0 := by
  have hne : p.posLo.val ≠ p.posHi.val := Fin.val_ne_of_ne hp
  rw [wireByteOf, encByte_getLsbD p _ 0 _ p.posLo.isLt]
  simp [hne]

theorem wireByteOf_posHi {p : Params} (hp : p.posLo ≠ p.posHi) (v : BitVec 2) :
    (wireByteOf p v).getLsbD p.posHi.val = v.getLsbD 1 := by
  have hne : p.posHi.val ≠ p.posLo.val := (Fin.val_ne_of_ne hp).symm
  rw [wireByteOf, encByte_getLsbD p _ 0 _ p.posHi.isLt]
  simp [hne]

/-- With two different positions both payload bits can be read off the wire byte. -/
theorem wireByteOf_injective {p : Params} (hp : p.posLo ≠ p.posHi) : Function.Injective (wireByteOf p) := by
  intro v v' h
  apply BitVec.eq_of_getLsbD_eq
  intro j hj
  interval_cases j
  · rw [← wireByteOf_posLo hp, h, wireByteOf_posLo hp]
  · rw [← wireByteOf_posHi hp, h, wireByteOf_posHi hp]

theorem range_wireByteOf (p : Params) : Set.range (wireByteOf p) = {w | WireByte p w} := by
  ext w
  constructor
  · rintro ⟨v, rfl⟩
    exact wireByte_iff_validByte.mpr (validByte_encByte p _ 0)
  · intro hw
    have hw0 : encByte p (decByte p w 0) 0 = w := encByte_decByte (wireByte_iff_validByte.mp hw) (by decide)
    refine ⟨(decByte p w 0).setWidth 2, .trans ?_ hw0⟩
    apply BitVec.eq_of_getLsbD_eq
    intro j hj
    simp [wireByteOf, encByte_getLsbD p _ 0 j hj]

/-- One valid wire byte per pair of payload bits. -/
theorem ncard_wireByte {p : Params} (hp : p.posLo ≠ p.posHi) : {w | WireByte p w}.ncard = 4 := by
  rw [← range_wireByteOf, Set.ncard_range_of_injective (wireByteOf_injective hp), Nat.card_eq_fintype_card,
    ← FinEnum.card_eq_fintypeCard, FinEnum.card_bitVec]
  rfl

theorem wireByte_default_iff (w : Byte) :
    WireByte Params.default w ↔ w = 0xDB ∨ w = 0xDF ∨ w = 0xFB ∨ w = 0xFF := by
  rw [wireByte_iff_validByte]
  revert w
  decide

/-- Settles O18, by the mask test: a valid byte is the encoding of the two bits it carries, at every position. -/
theorem exactlyFourBytesAreValid : Obligations.ExactlyFourBytesAreValid :=
  ⟨wireByte_iff_mask, fun _ hp => ncard_wireByte hp, wireByte_default_iff, fun _ _ _ hi hw => hw.exists_at hi⟩

end Sys2Proof.Machine
end

section
/-! The byte codec as an inverse pair (40_codec.md): the bits of ENC and DEC, the round trips in both directions, and the
image of ENC (R80 to R84). -/

namespace Sys2Proof.Machine

theorem getElem?_frameBytes_enc {p : Params} {b w : Byte} {i : Nat} (h : (frameBytes (enc p b))[i]? = some w) :
    w = encByte p b i := by
  obtain ⟨hi, -⟩ := List.getElem?_eq_some_iff.mp h
  rw [frameBytes_enc_getElem? p b (by simpa using hi)] at h
  exact (Option.some.inj h).symm

/-- At `CODEC_POS_LO` stands payload bit `2i` (R80). -/
theorem encByte_getLsbD_posLo {p : Params} (hp : p.posLo ≠ p.posHi) (b : Byte) (i : Nat) :
    (encByte p b i).getLsbD p.posLo.val = b.getLsbD (2 * i) := by
  rw [encByte_getLsbD p b i _ p.posLo.isLt]
  simp [Fin.val_ne_of_ne hp]

/-- At `CODEC_POS_HI` stands payload bit `2i+1` (R80). -/
theorem encByte_getLsbD_posHi {p : Params} (hp : p.posLo ≠ p.posHi) (b : Byte) (i : Nat) :
    (encByte p b i).getLsbD p.posHi.val = b.getLsbD (2 * i + 1) := by
  rw [encByte_getLsbD p b i _ p.posHi.isLt]
  simp [(Fin.val_ne_of_ne hp).symm]

/-- Frame byte `i` of an encoding depends on payload bits `2i` and `2i+1` alone (R80). -/
theorem encByte_congr (p : Params) {a b : Byte} {i : Nat} (hlo : a.getLsbD (2 * i) = b.getLsbD (2 * i))
    (hhi : a.getLsbD (2 * i + 1) = b.getLsbD (2 * i + 1)) : encByte p a i = encByte p b i := by
  apply BitVec.eq_of_getLsbD_eq
  intro j hj
  rw [encByte_getLsbD p a i j hj, encByte_getLsbD p b i j hj, hlo, hhi]

/-- Of the even bits of the payload, frame byte `i` contributes bit `2i` alone (R81). -/
theorem decByte_getLsbD_lo (p : Params) (w : Byte) (i : Nat) {k : Nat} (hk : k < 4) :
    (decByte p w i).getLsbD (2 * k) = (decide (k = i) && w.getLsbD p.posLo.val) := by
  have hne : 2 * k ≠ 2 * i + 1 := by omega
  rw [decByte_getLsbD p w i _ (by omega)]
  simp [hne]

/-- Of the odd bits of the payload, frame byte `i` contributes bit `2i+1` alone (R81). -/
theorem decByte_getLsbD_hi (p : Params) (w : Byte) (i : Nat) {k : Nat} (hk : k < 4) :
    (decByte p w i).getLsbD (2 * k + 1) = (decide (k = i) && w.getLsbD p.posHi.val) := by
  have hne : 2 * k + 1 ≠ 2 * i := by omega
  rw [decByte_getLsbD p w i _ (by omega)]
  simp [hne]

/-- DEC reads bit `2i` off frame byte `i` at `CODEC_POS_LO` (R81). -/
theorem dec_getLsbD_lo (p : Params) {f : Frame} {i : Nat} {w : Byte} (hw : (frameBytes f)[i]? = some w) :
    (dec p f).getLsbD (2 * i) = w.getLsbD p.posLo.val := by
  obtain ⟨hi, rfl⟩ := List.getElem?_eq_some_iff.mp hw
  rw [frameBytes_length] at hi
  simp only [dec, BitVec.getLsbD_or, decByte_getLsbD_lo p _ _ hi]
  interval_cases i <;> simp [frameBytes]

/-- DEC reads bit `2i+1` off frame byte `i` at `CODEC_POS_HI` (R81). -/
theorem dec_getLsbD_hi (p : Params) {f : Frame} {i : Nat} {w : Byte} (hw : (frameBytes f)[i]? = some w) :
    (dec p f).getLsbD (2 * i + 1) = w.getLsbD p.posHi.val := by
  obtain ⟨hi, rfl⟩ := List.getElem?_eq_some_iff.mp hw
  rw [frameBytes_length] at hi
  simp only [dec, BitVec.getLsbD_or, decByte_getLsbD_hi p _ _ hi]
  interval_cases i <;> simp [frameBytes]

/-- R82: each pair of payload bits is written to its frame byte and read back from there. -/
theorem dec_enc {p : Params} (hp : p.posLo ≠ p.posHi) (b : Byte) : dec p (enc p b) = b := by
  apply BitVec.eq_of_getLsbD_eq
  intro j hj
  obtain ⟨i, hji⟩ := Nat.even_or_odd' j
  have hw : (frameBytes (enc p b))[i]? = some (encByte p b i) := frameBytes_enc_getElem? p b (by omega)
  rcases hji with rfl | rfl
  · rw [dec_getLsbD_lo p hw, encByte_getLsbD_posLo hp]
  · rw [dec_getLsbD_hi p hw, encByte_getLsbD_posHi hp]

theorem enc_injective {p : Params} (hp : p.posLo ≠ p.posHi) : Function.Injective (enc p) :=
  Function.LeftInverse.injective (dec_enc hp)

/-- Re-encoding a decoded frame gives its valid bytes back, each at its place. -/
theorem encByte_dec {p : Params} {f : Frame} {i : Nat} {w : Byte} (hi : (frameBytes f)[i]? = some w)
    (hw : WireByte p w) : encByte p (dec p f) i = w := by
  obtain ⟨hlt, -⟩ := List.getElem?_eq_some_iff.mp hi
  rw [frameBytes_length] at hlt
  calc encByte p (dec p f) i
      = encByte p (decByte p w i) i := encByte_congr p
        (by simp [dec_getLsbD_lo p hi, decByte_getLsbD_lo p w i hlt])
        (by simp [dec_getLsbD_hi p hi, decByte_getLsbD_hi p w i hlt])
    _ = w := encByte_decByte (wireByte_iff_validByte.mp hw) hlt

/-- Every byte of an encoding is a wire byte, and a frame of wire bytes re-encodes to itself. -/
theorem enc_dec_eq_iff_wireByte {p : Params} {f : Frame} :
    enc p (dec p f) = f ↔ WireByte p f.f0 ∧ WireByte p f.f1 ∧ WireByte p f.f2 ∧ WireByte p f.f3 := by
  constructor
  · intro h
    have hmem : ∀ w ∈ frameBytes f, WireByte p w := fun w hw => ⟨dec p f, by rwa [h]⟩
    simpa [frameBytes] using hmem
  · rintro ⟨h0, h1, h2, h3⟩
    simp only [enc, encByte_dec (i := 0) rfl h0, encByte_dec (i := 1) rfl h1, encByte_dec (i := 2) rfl h2,
      encByte_dec (i := 3) rfl h3]

/-- The frames that re-encode to themselves are the encodings, whether or not the two positions differ. -/
theorem enc_dec_eq_iff_exists {p : Params} {f : Frame} : enc p (dec p f) = f ↔ ∃ b, enc p b = f := by
  refine ⟨fun h => ⟨_, h⟩, ?_⟩
  rintro ⟨b, rfl⟩
  rw [enc_dec_eq_iff_wireByte]
  refine ⟨⟨b, ?_⟩, ⟨b, ?_⟩, ⟨b, ?_⟩, ⟨b, ?_⟩⟩ <;> simp [frameBytes]

theorem rtOk_iff {p : Params} {f : Frame} : rtOk p f = true ↔ enc p (dec p f) = f := decide_eq_true_iff

/-- One encoding per byte value (R84). -/
theorem ncard_range_enc {p : Params} (hp : p.posLo ≠ p.posHi) : (Set.range (enc p)).ncard = 256 := by
  rw [Set.ncard_range_of_injective (enc_injective hp), Nat.card_eq_fintype_card, ← FinEnum.card_eq_fintypeCard,
    FinEnum.card_bitVec]
  rfl

/-- Settles O13, by reading each pair of payload bits back from the frame byte it went to. -/
theorem decodingAnEncodedByteGivesItBack : Obligations.DecodingAnEncodedByteGivesItBack :=
  fun _ b hp => dec_enc hp b

/-- Settles O14: DEC keeps the only two bits of a valid byte that the base does not fix, so ENC restores the byte. -/
theorem roundTripTestIsValidityOfAllFourBytes : Obligations.RoundTripTestIsValidityOfAllFourBytes :=
  fun _ _ => ⟨rtOk_iff, rtOk_iff.trans enc_dec_eq_iff_wireByte⟩

/-- Settles O15: DEC is a left inverse of ENC, and a right inverse on the frames of valid bytes. -/
theorem encIsABijectionOntoTheValidFrames : Obligations.EncIsABijectionOntoTheValidFrames := by
  intro p hp
  refine ⟨enc_injective hp, fun f => enc_dec_eq_iff_exists.symm.trans enc_dec_eq_iff_wireByte, ncard_range_enc hp,
    fun f hf => ⟨rtOk_iff.mp hf, ?_⟩⟩
  rintro b rfl
  exact (dec_enc hp b).symm

end Sys2Proof.Machine
end

section
/-! What the four commands of the codec family respond (R85 to R88). -/

namespace Sys2Proof.Machine

theorem exec_enc (b : Byte) (s : State) :
    exec (.enc b) s = .next (respond .ok (frameBytes (enc s.params b)) s) := rfl

theorem exec_dec (f : Frame) (s : State) : exec (.dec f) s = .next (respond .ok [dec s.params f] s) := rfl

theorem exec_chk (f : Frame) (s : State) :
    exec (.chk f) s = .next (respond .ok [boolByte (rtOk s.params f)] s) := rfl

theorem exec_valb (w : Byte) (s : State) :
    exec (.valb w) s = .next (respond .ok [boolByte (validByte s.params w)] s) := rfl

/-- Settles O11: the response is ENC's frame, whose bits are those of R80. -/
theorem encInjectsThePayloadBits : Obligations.EncInjectsThePayloadBits := by
  intro s b rest hp
  refine ⟨rfl, frameBytes (enc s.params b), frameBytes_length _, exec_enc b s, fun i w hw => ?_⟩
  rw [getElem?_frameBytes_enc hw]
  exact ⟨encByte_getLsbD_posLo hp b i, encByte_getLsbD_posHi hp b i,
    (validByte_iff _ _).mp (validByte_encByte s.params b i)⟩

/-- Settles O12: the response is DEC's byte, whose bits are those of R81. -/
theorem decExtractsThePayloadBits : Obligations.DecExtractsThePayloadBits :=
  fun s f _ => ⟨rfl, dec s.params f, exec_dec f s, fun _ _ hw => ⟨dec_getLsbD_lo _ hw, dec_getLsbD_hi _ hw⟩⟩

/-- Settles O16: CHK responds with the round-trip test, which exactly the encodings pass. -/
theorem chkTellsTheEncodedFrames : Obligations.ChkTellsTheEncodedFrames := by
  intro s f rest
  have htest : rtOk s.params f = true ↔ ∃ b, enc s.params b = f := rtOk_iff.trans enc_dec_eq_iff_exists
  refine ⟨rfl, enc_dec_eq_iff_exists, fun h => ?_, fun h => ?_⟩
  · rw [exec_chk, htest.mpr h]; rfl
  · rw [exec_chk, Bool.eq_false_iff.mpr (mt htest.mp h)]; rfl

/-- Settles O17: VALB responds with the mask test, which exactly the bytes of encodings pass. -/
theorem valbTellsTheBytesOfEncodings : Obligations.ValbTellsTheBytesOfEncodings := by
  intro s w rest
  refine ⟨rfl, fun h => ?_, fun h => ?_⟩
  · rw [exec_valb, wireByte_iff_validByte.mp h]; rfl
  · rw [exec_valb, Bool.eq_false_iff.mpr (mt wireByte_iff_validByte.mpr h)]; rfl

end Sys2Proof.Machine
end

section
/-! What ALIGN does (R100 to R104): each way of its scan, what the scan ends with, and that a second ALIGN removes
nothing. -/

namespace Sys2Proof.Machine

theorem exec_align (s : State) :
    exec .align s = .next (respond .ok [boolByte (alignProc s).1] (alignProc s).2) := rfl

/-- ALIGN depends on RAW and the counters only through its loop, so a scan that goes on is ALIGN of the state it goes on
from. -/
theorem exec_align_of_alignLoop_eq {s : State} {raw : List Byte} {cnt : Counters}
    (h : alignLoop s.params s.swfc.raw s.swfc.cnt = alignLoop s.params raw cnt) :
    exec .align s = exec .align { s with swfc := { s.swfc with raw := raw, cnt := cnt } } := by
  simp [exec_align, alignProc, h]

/-- Where the loop stops at once, ALIGN only responds. -/
theorem exec_align_of_alignLoop_stops {s : State} {a : Bool}
    (h : alignLoop s.params s.swfc.raw s.swfc.cnt = (a, s.swfc.raw, s.swfc.cnt)) :
    exec .align s = .next (respond .ok [boolByte a] s) := by
  simp [exec_align, alignProc, h]

/-- R100 step 2, the empty RAW included. -/
theorem alignLoop_of_length_le {p : Params} {raw : List Byte} (hl : raw.length ≤ 3)
    (hv : ∀ w ∈ raw.head?, validByte p w = true) (c : Counters) : alignLoop p raw c = (false, raw, c) := by
  cases raw with
  | nil => exact alignLoop_nil p c
  | cons w rest => exact alignLoop_short p (hv w rfl) (by simpa using hl) c

/-- The loop stops at once on what it has left (R101). -/
theorem alignLoop_idempotent (p : Params) (raw : List Byte) (c d : Counters) :
    alignLoop p (alignLoop p raw c).2.1 d = ((alignLoop p raw c).1, (alignLoop p raw c).2.1, d) := by
  rcases alignLoop_result p raw c with ⟨hbit, f, rest, hraw, hv, hf⟩ | ⟨hbit, hl, hv⟩
  · rw [hbit, hraw, alignLoop_pass p hv hf]
  · rw [hbit, alignLoop_of_length_le hl hv]

theorem alignLoop_cnt (p : Params) (raw : List Byte) (c : Counters) :
    (alignLoop p raw c).2.2 =
      { c with filter := (alignLoop p raw c).2.2.filter, resync := (alignLoop p raw c).2.2.resync } := by
  refine counters_ext fun k => ?_
  cases k
  case filter | resync => rfl
  all_goals exact alignLoop_otherCounters p raw c (by decide) (by decide)

/-- What ALIGN ends with, in the words of R101. -/
theorem alignProc_result (s : State) :
    ((alignProc s).1 = true ∧ ∃ f rest, (alignProc s).2.swfc.raw = frameBytes f ++ rest ∧
        rtOk s.params f = true) ∨
      ((alignProc s).1 = false ∧ (alignProc s).2.swfc.raw.length ≤ 3 ∧
        ∀ w rest, (alignProc s).2.swfc.raw = w :: rest → WireByte s.params w) := by
  rcases alignLoop_result s.params s.swfc.raw s.swfc.cnt with ⟨hbit, f, rest, hraw, -, hf⟩ | ⟨hbit, hl, hv⟩
  · exact .inl ⟨hbit, f, rest, hraw, hf⟩
  · refine .inr ⟨hbit, hl, fun w rest hraw => wireByte_iff_validByte.mpr (hv w ?_)⟩
    rw [← alignProc_raw, hraw]
    rfl

/-- Settles O19: each clause is the step of R100 that its hypothesis selects. -/
theorem alignScansFromTheFront : Obligations.AlignScansFromTheFront := by
  refine ⟨fun _ => rfl, fun s =>
    ⟨fun w rest hraw hw => ?_, fun hl hv => ?_, fun w0 w1 w2 w3 rest hraw hw => ?_⟩⟩
  · have hw' : validByte s.params w = false := Bool.eq_false_iff.mpr (mt wireByte_iff_validByte.mpr hw)
    exact exec_align_of_alignLoop_eq (by rw [hraw, alignLoop_invalid _ hw']; rfl)
  · refine exec_align_of_alignLoop_stops (a := false) (alignLoop_of_length_le (by omega) (fun w hw => ?_) _)
    obtain ⟨rest, hraw⟩ := List.head?_eq_some_iff.mp hw
    exact wireByte_iff_validByte.mp (hv w rest hraw)
  · have hw' : validByte s.params w0 = true := wireByte_iff_validByte.mp hw
    have hraw' : s.swfc.raw = frameBytes ⟨w0, w1, w2, w3⟩ ++ rest := hraw
    refine ⟨fun ht => ?_, fun ht => ?_⟩
    · exact exec_align_of_alignLoop_stops (a := true) (by rw [hraw', alignLoop_pass _ hw' (rtOk_iff.mpr ht)])
    · have hf : rtOk s.params ⟨w0, w1, w2, w3⟩ = false := Bool.eq_false_iff.mpr (mt rtOk_iff.mp ht)
      exact exec_align_of_alignLoop_eq (by rw [hraw', alignLoop_fail _ hw' hf]; rfl)

/-- Settles O20: the loop leaves a suffix on which it stops at once, and counts only its own two events. -/
theorem alignEndsAlignedOrShort : Obligations.AlignEndsAlignedOrShort := by
  intro s
  refine ⟨boolByte (alignProc s).1, respond .ok [boolByte (alignProc s).1] (alignProc s).2, exec_align s, ?_,
    alignLoop_suffix s.params s.swfc.raw s.swfc.cnt, ?_,
    exec_align_of_alignLoop_stops (alignLoop_idempotent s.params s.swfc.raw s.swfc.cnt _)⟩
  · simp only [respond_swfc, alignProc_cnt, ← alignLoop_cnt]
    rfl
  · rcases alignProc_result s with ⟨hbit, f, rest, hraw, hf⟩ | ⟨hbit, hshort⟩
    · exact .inl ⟨by rw [hbit]; rfl, f, rest, hraw, hf, enc_dec_eq_iff_wireByte.mp (rtOk_iff.mp hf)⟩
    · exact .inr ⟨by rw [hbit]; rfl, hshort⟩

end Sys2Proof.Machine
end

section
/-! What RDFR and RXB do (R106, R107, R109): align, read at most once, extract, and respond with the frame or with the
byte it encodes. -/

namespace Sys2Proof

theorem frameBytes_injective : Function.Injective frameBytes := by
  rintro ⟨f0, f1, f2, f3⟩ ⟨g0, g1, g2, g3⟩ h
  simpa [frameBytes] using h

end Sys2Proof

namespace Sys2Proof.Machine

theorem extractFrame_of_frame {s : State} {f : Frame} {rest : List Byte} (h : s.swfc.raw = frameBytes f ++ rest) :
    extractFrame true s = (.ok f, count .frames { s with swfc := { s.swfc with raw := rest } }) := by
  simp [extractFrame, h]

/-- Where ALIGN has left 4 bytes, they are an aligned frame (R101), and RDFR's end extracts it (R106). -/
theorem extractFrame_alignProc_of_frame {s : State} {f : Frame} {rest : List Byte}
    (h : (alignProc s).2.swfc.raw = frameBytes f ++ rest) :
    extractFrame (alignProc s).1 (alignProc s).2 =
      (.ok f, count .frames { (alignProc s).2 with swfc := { (alignProc s).2.swfc with raw := rest } }) := by
  rcases alignProc_result s with ⟨hbit, -⟩ | ⟨-, hl, -⟩
  · rw [hbit, extractFrame_of_frame h]
  · rw [h, List.length_append, frameBytes_length] at hl
    omega

/-- Where ALIGN has left fewer than 4 bytes there is no frame (R106). -/
theorem extractFrame_alignProc_of_short {s : State} (h : (alignProc s).2.swfc.raw.length < 4) :
    extractFrame (alignProc s).1 (alignProc s).2 = (.error .noframe, (alignProc s).2) := by
  rcases extractFrame_cases (alignProc s).1 (alignProc s).2 with ⟨f, rest, -, hraw, -⟩ | ⟨-, h'⟩
  · rw [hraw, List.length_append, frameBytes_length] at h
    omega
  · exact h'

/-- A frame extracted after ALIGN has passed ALIGN's trial. -/
theorem rtOk_of_extractFrame_alignProc {s u : State} {f : Frame}
    (h : extractFrame (alignProc s).1 (alignProc s).2 = (.ok f, u)) : rtOk s.params f = true := by
  rcases alignProc_result s with ⟨-, g, rest, hraw, hg⟩ | ⟨-, hl, -⟩
  · rw [extractFrame_alignProc_of_frame hraw] at h
    cases h
    exact hg
  · rw [extractFrame_alignProc_of_short (by omega)] at h
    cases h

/-- An append, field by field (R46). -/
theorem rawAppend_eq {l all : List Byte} {s : State} (hall : all = s.swfc.raw ++ l) :
    rawAppend l s = { s with swfc := { s.swfc with
      raw := if s.params.rawCap < all.length then all.drop (all.length - s.params.rawTail) else all
      cnt := { s.swfc.cnt with
        purge := if s.params.rawCap < all.length then s.swfc.cnt.purge + 1 else s.swfc.cnt.purge } } } := by
  subst hall
  unfold rawAppend appendPurge
  by_cases hcap : s.params.rawCap < (s.swfc.raw ++ l).length
  · simp only [gt_iff_lt, if_pos hcap]
    rfl
  · simp only [gt_iff_lt, if_neg hcap]

/-- RDFR's taking of a data answer (R106): count an over-long report, append the delivered bytes. -/
def receive (n : Nat) (b : Frame) (s : State) : State :=
  rawAppend (delivered n b) (if n > 4 then count .trunc s else s)

theorem takeRead_data (n : Nat) (b : Frame) (s : State) :
    takeRead (.data n b) s = extractFrame (alignProc (receive n b s)).1 (alignProc (receive n b s)).2 := rfl

@[simp] theorem receive_params (n : Nat) (b : Frame) (s : State) : (receive n b s).params = s.params := by
  unfold receive
  split <;> rfl

/-- The state after a data answer, field by field (R44, R46, R106). -/
theorem receive_eq (n : Nat) (b : Frame) (s : State) {all : List Byte} (hall : all = s.swfc.raw ++ delivered n b) :
    receive n b s = { s with swfc := { s.swfc with
      raw := if s.params.rawCap < all.length then all.drop (all.length - s.params.rawTail) else all
      cnt := { s.swfc.cnt with
        trunc := if 4 < n then s.swfc.cnt.trunc + 1 else s.swfc.cnt.trunc
        purge := if s.params.rawCap < all.length then s.swfc.cnt.purge + 1 else s.swfc.cnt.purge } } } := by
  unfold receive
  by_cases hn : 4 < n
  · rw [if_pos hn, rawAppend_eq (s := count .trunc s) hall]
    simp only [if_pos hn]
    rfl
  · rw [if_neg hn, rawAppend_eq hall]
    simp only [if_neg hn]

theorem transportRead_of_reads {s : State} {a : ReadAnswer} {reads : List ReadAnswer} (h : s.env.reads = a :: reads) :
    transportRead s = (a, { s with env := { s.env with reads := reads } }) := by
  simp [transportRead, h]

@[simp] theorem transportRead_params (s : State) : (transportRead s).2.params = s.params := by
  rcases transportRead_cases s with ⟨a, rest, -, h⟩ | ⟨-, h⟩ <;> rw [h]

theorem readFrame_of_frame {s : State} {f : Frame} {rest : List Byte}
    (h : (alignProc s).2.swfc.raw = frameBytes f ++ rest) :
    readFrame s =
      (.ok f, count .frames { (alignProc s).2 with swfc := { (alignProc s).2.swfc with raw := rest } }) := by
  rcases readFrame_cases s with ⟨-, h'⟩ | ⟨hl, -⟩
  · rw [h', extractFrame_alignProc_of_frame h]
  · rw [h, List.length_append, frameBytes_length] at hl
    omega

theorem readFrame_of_short {s : State} (h : (alignProc s).2.swfc.raw.length < 4) {a : ReadAnswer}
    {reads : List ReadAnswer} (hr : s.env.reads = a :: reads) :
    readFrame s = takeRead a { (alignProc s).2 with env := { s.env with reads := reads } } := by
  rcases readFrame_cases s with ⟨hl, -⟩ | ⟨-, h'⟩
  · omega
  · have hr' : (alignProc s).2.env.reads = a :: reads := hr
    rw [h', transportRead_of_reads hr', alignProc_env]

/-- RDFR's body ends with a read failure, or with an extraction right after an ALIGN (R106). -/
theorem readFrame_ends (s : State) : (∃ u, readFrame s = (.error .rxerr, u)) ∨
    ∃ u, u.params = s.params ∧ readFrame s = extractFrame (alignProc u).1 (alignProc u).2 := by
  rcases readFrame_cases s with ⟨-, h⟩ | ⟨-, h⟩
  · exact .inr ⟨s, rfl, h⟩
  · rw [h]
    cases (transportRead (alignProc s).2).1 with
    | fail => exact .inl ⟨_, rfl⟩
    | data n b => exact .inr ⟨_, by simp, takeRead_data n b _⟩

/-- R109 for the body that RDFR and RXB share. -/
theorem rtOk_of_readFrame {s u : State} {f : Frame} (h : readFrame s = (.ok f, u)) : rtOk s.params f = true := by
  rcases readFrame_ends s with ⟨v, hv⟩ | ⟨v, hp, hv⟩
  · rw [hv] at h
    cases h
  · rw [← hp]
    exact rtOk_of_extractFrame_alignProc (hv ▸ h)

section responses
variable {s u : State}

theorem responses_of_readFrame {x : Except Status Frame} (h : readFrame s = (x, u)) : u.responses = s.responses := by
  simpa [h] using readFrame_responses s

theorem exec_rdfr_of_ok {f : Frame} (h : readFrame s = (.ok f, u)) :
    exec .rdfr s = .next (respond .ok (frameBytes f) u) := by simp [exec, execRdfr, h]

theorem exec_rdfr_of_error {st : Status} (h : readFrame s = (.error st, u)) :
    exec .rdfr s = .next (respond st [] u) := by simp [exec, execRdfr, h]

theorem exec_rxb_of_ok {f : Frame} (h : readFrame s = (.ok f, u)) :
    exec .rxb s = .next (respond .ok [dec s.params f] u) := by simp [exec, execRxb, h]

theorem exec_rxb_of_error {st : Status} (h : readFrame s = (.error st, u)) :
    exec .rxb s = .next (respond st [] u) := by simp [exec, execRxb, h]

end responses

/-- Settles O22, by what ALIGN leaves (a frame, or fewer than 4 bytes and so a read), then by the read's answer, then by
what the second ALIGN leaves. -/
theorem rdfrAlignsReadsOnceAndExtracts : Obligations.RdfrAlignsReadsOnceAndExtracts := by
  rintro s _ - ⟨⟩
  refine ⟨rfl, fun f raw hf => ?_, fun hl reads hr => ?_, ?_⟩
  · rw [exec_rdfr_of_ok (readFrame_of_frame hf)]
    rfl
  · rw [exec_rdfr_of_error (readFrame_of_short hl hr)]
    rfl
  · rintro hl n b reads hr all u _ hall hu ⟨⟩
    have hu' : receive n b { (alignProc s).2 with env := { s.env with reads := reads } } = u := by
      refine (receive_eq n b _ (all := all) ?_).trans hu.symm
      exact hall
    have hbody : readFrame s = extractFrame (alignProc u).1 (alignProc u).2 := by
      rw [readFrame_of_short hl hr, takeRead_data, hu']
    have hresp : u.responses = s.responses := by rw [hu]
    refine ⟨fun f raw hf => ?_, fun hl' => ?_⟩
    · rw [exec_rdfr_of_ok (hbody.trans (extractFrame_alignProc_of_frame hf)), ← hresp]
      rfl
    · rw [exec_rdfr_of_error (hbody.trans (extractFrame_alignProc_of_short hl')), ← hresp]
      rfl

/-- Settles O24: both commands answer what one body gives, and a frame it gives encodes the byte it decodes to. -/
theorem rxbIsRdfrDecoded : Obligations.RxbIsRdfrDecoded := by
  intro s rest hp
  refine ⟨rfl, ?_⟩
  match h : readFrame s with
  | (.ok f, u) =>
    have hf : enc s.params (dec s.params f) = f := rtOk_iff.mp (rtOk_of_readFrame h)
    have hresp := responses_of_readFrame h
    refine ⟨_, ⟨.ok, frameBytes f⟩, exec_rdfr_of_ok h, by rw [respond_responses, hresp],
      .inl ⟨rfl, dec s.params f, by rw [hf], fun b' hb' => ?_, ?_⟩⟩
    · rw [← frameBytes_injective hb', dec_enc hp]
    · rw [exec_rxb_of_ok h, ← hresp]
      rfl
  | (.error st, u) =>
    have hresp := responses_of_readFrame h
    exact ⟨_, ⟨st, []⟩, exec_rdfr_of_error h, by rw [respond_responses, hresp],
      .inr ⟨readFrame_status (congrArg Prod.fst h), rfl, exec_rxb_of_error h⟩⟩

/-- Settles O25: an OK response carries a frame of the body, and each of those passed ALIGN's trial. -/
theorem rdfrReturnsOnlyEncodedFrames : Obligations.RdfrReturnsOnlyEncodedFrames := by
  intro s t r ht hr hok
  match h : readFrame s with
  | (.ok f, u) =>
    have hresp := responses_of_readFrame h
    cases (exec_rdfr_of_ok h).symm.trans ht
    obtain rfl : (⟨.ok, frameBytes f⟩ : Response) = r := by simpa [← hresp] using hr
    have hf := rtOk_of_readFrame h
    exact ⟨f, rfl, hf, dec s.params f, rtOk_iff.mp hf⟩
  | (.error st, u) =>
    have hresp := responses_of_readFrame h
    cases (exec_rdfr_of_error h).symm.trans ht
    obtain rfl : (⟨st, []⟩ : Response) = r := by simpa [← hresp] using hr
    obtain rfl : st = .ok := hok
    simpa using readFrame_status (congrArg Prod.fst h)

end Sys2Proof.Machine
end

section
/-! The control family (R140 to R143): the whole effect of NOP, CLRCNT and SRST, and the register that RDSR responds. -/

namespace Sys2Proof.Machine

theorem exec_nop (s : State) : exec .nop s = .next (respond .ok [] s) := rfl

theorem exec_clrcnt (s : State) :
    exec .clrcnt s = .next (respond .ok [] { s with swfc := { s.swfc with cnt := Counters.zero } }) := rfl

theorem exec_srst (s : State) : exec .srst s = .next (respond .ok [] { s with swfc := Swfc.reset }) := rfl

/-- The status registers' values as numbers, in the order of their indexes (R23). -/
def statusRegValues (m : Swfc) : List Nat :=
  [m.cnt.frames.toNat, m.cnt.filter.toNat, m.cnt.resync.toNat, m.cnt.trunc.toNat, m.cnt.purge.toNat, m.cnt.tx.toNat,
    m.cnt.txerr.toNat, m.cnt.rxerr.toNat, m.raw.length % 2 ^ 32, m.txReadyAt.toNat, if m.txArmed then 1 else 0]

/-- The list has an entry for exactly the indexes that name a register, so the equation holds of the reserved ones too. -/
theorem statusReg_map_toNat (m : Swfc) (idx : Byte) :
    (statusReg m idx).map BitVec.toNat = (statusRegValues m)[idx.toNat]? := by
  unfold statusReg statusRegValues
  generalize idx.toNat = n
  rcases Nat.lt_or_ge n 11 with h | h
  · interval_cases n <;> simp [apply_ite BitVec.toNat]
  · obtain ⟨k, rfl⟩ := Nat.exists_eq_add_of_le' h
    simp

/-- The data bytes of a 32-bit value give it back, each weighing 256 times the one before it (R65). -/
theorem exists_le32_eq (v : Word) : ∃ b0 b1 b2 b3 : Byte, le32 v = [b0, b1, b2, b3] ∧
    v.toNat = b0.toNat + 256 * b1.toNat + 65536 * b2.toNat + 16777216 * b3.toNat := by
  refine ⟨_, _, _, _, rfl, ?_⟩
  simp only [BitVec.extractLsb'_toNat, Nat.shiftRight_eq_div_pow]
  have := v.isLt
  omega

/-- Settles O39: a named index responds the bytes of its register, whose value stands at that place of the list; a
reserved one is reported. -/
theorem rdsrReturnsTheNamedRegister : Obligations.RdsrReturnsTheNamedRegister := by
  refine fun s idx rest => ⟨rfl, fun h => ?_, fun h => exec_rdsr_reserved h s⟩
  obtain ⟨v, hv, hexec⟩ := exec_rdsr_named h s
  obtain ⟨b0, b1, b2, b3, hbytes, hvalue⟩ := exists_le32_eq v
  have hlist : (statusRegValues s.swfc)[idx.toNat]? = some v.toNat := by
    rw [← statusReg_map_toNat, hv, Option.map_some]
  exact ⟨b0, b1, b2, b3, hbytes ▸ hexec, hvalue ▸ hlist⟩

/-- Settles O2: each opcode byte decodes to its command, and each command is one update of the SWFC and one response. -/
theorem controlCommandsDoExactlyTheirEffect : Obligations.ControlCommandsDoExactlyTheirEffect :=
  fun s _ => ⟨rfl, exec_nop s, rfl, exec_clrcnt s, rfl, exec_srst s⟩

end Sys2Proof.Machine
end

section
/-! Reset (R170): the values of the reset SWFC, by power-on and by SRST. -/

namespace Sys2Proof.Machine

/-- A reset SWFC has nothing to show in any of its 11 registers. -/
theorem statusRegValues_reset : statusRegValues Swfc.reset = List.replicate 11 0 := rfl

theorem statusReg_reset {idx : Byte} (h : idx.toNat ≤ 10) : statusReg Swfc.reset idx = some 0 := by
  have hentry : (statusReg Swfc.reset idx).map BitVec.toNat = some 0 := by
    rw [statusReg_map_toNat, statusRegValues_reset, List.getElem?_replicate_of_lt (by omega)]
  obtain ⟨v, hv, hzero⟩ := Option.map_eq_some_iff.mp hentry
  rw [hv, BitVec.eq_of_toNat_eq (y := 0) hzero]

/-- Settles O1: power-on and SRST both leave `Swfc.reset`, and SRST changes nothing else but the responses. -/
theorem resetPutsEveryComponentToItsResetValue : Obligations.ResetPutsEveryComponentToItsResetValue :=
  ⟨rfl, fun _ => statusReg_reset, rfl, rfl, fun s => ⟨_, exec_srst s, rfl, rfl, rfl, rfl⟩⟩

end Sys2Proof.Machine
end

section
/-! The decoder and the encoder as inverses (30_encoding.md R63, R64, R67), and the step that runs what the decoder
reads (R9). -/

namespace Sys2Proof

/-- The opcode byte names the command and its operand bytes are read back in order (R64). -/
@[simp] theorem decode_encode_append (i : Instr) (rest : List Byte) : decode (encode i ++ rest) = .ok (i, rest) := by
  cases i <;> rfl

@[simp] theorem decode_nil : decode [] = .error .noCommand := rfl

/-- Reading the commands of a byte sequence one after the other leaves no choice. -/
theorem flatMap_encode_injective : Function.Injective fun is : List Instr => is.flatMap encode := by
  intro is js h
  induction is generalizing js with
  | nil =>
    cases js with
    | nil => rfl
    | cons j js =>
      have hd := congrArg decode h
      simp at hd
  | cons i is ih =>
    cases js with
    | nil =>
      have hd := congrArg decode h
      simp at hd
    | cons j js =>
      have hd := congrArg decode h
      simp only [List.flatMap_cons, decode_encode_append, Except.ok.injEq, Prod.mk.injEq] at hd
      obtain ⟨rfl, htail⟩ := hd
      rw [ih htail]

theorem takeByte_eq_some {l : List Byte} {b : Byte} {rest : List Byte} :
    takeByte l = some (b, rest) ↔ l = b :: rest := by
  cases l <;> simp [takeByte]

/-- The operands that are read are those of the command's encoding. -/
theorem encode_of_readOperands {o : Op} {cs : List Byte} {i : Instr} {rest : List Byte}
    (h : readOperands o cs = some (i, rest)) : o.code :: cs = encode i ++ rest := by
  cases o
  case nop | align | rdfr | rxb | clrcnt | srst =>
    cases h
    rfl
  case enc | valb | txb | rdsr =>
    obtain ⟨⟨b, r⟩, htake, hi⟩ := Option.map_eq_some_iff.mp h
    cases hi
    rw [takeByte_eq_some.mp htake]
    rfl
  case dec | chk =>
    obtain ⟨⟨f, r⟩, htake, hi⟩ := Option.map_eq_some_iff.mp h
    cases hi
    rw [takeFrame_eq_some.mp htake]
    rfl

theorem eq_encode_append_of_decode {bs : List Byte} {i : Instr} {rest : List Byte} (h : decode bs = .ok (i, rest)) :
    bs = encode i ++ rest := by
  cases bs with
  | nil => cases h
  | cons c cs =>
    cases ho : opOf c with
    | none => simp [decode, ho] at h
    | some o =>
      cases hr : readOperands o cs with
      | none => simp [decode, ho, hr] at h
      | some x =>
        simp only [decode, ho, hr, Except.ok.injEq] at h
        rw [← code_of_opOf ho]
        exact encode_of_readOperands (h ▸ hr)

/-- Settles O7: the decoder reads each command off its encoding, so a sequence's bytes determine its commands one by
one. -/
theorem decodingAnEncodedCommandGivesItBack : Obligations.DecodingAnEncodedCommandGivesItBack :=
  ⟨decode_encode_append, fun _ _ h => flatMap_encode_injective h⟩

/-- Settles O8: the opcode byte and the operands that are read are the encoding's own bytes. -/
theorem decodedBytesAreTheEncoding : Obligations.DecodedBytesAreTheEncoding :=
  fun _ _ _ => eq_encode_append_of_decode

/-- Settles O6: each word is the encoding of its row's command, with nothing after it. -/
theorem tableWordsDecodeToTheirCommands : Obligations.TableWordsDecodeToTheirCommands :=
  ⟨decode_encode_append .nop [], decode_encode_append (.enc 0x6F) [],
    decode_encode_append (.dec ⟨0xFF, 0xFE, 0xFB, 0xDF⟩) [], decode_encode_append (.chk ⟨0xDB, 0xDF, 0xFF, 0x00⟩) [],
    decode_encode_append (.valb 0xFB) [], decode_encode_append .align [], decode_encode_append .rdfr [],
    decode_encode_append .rxb [], decode_encode_append (.txb 0x6B) [], decode_encode_append (.rdsr 0x0A) [],
    decode_encode_append .clrcnt [], decode_encode_append .srst []⟩

end Sys2Proof

namespace Sys2Proof.Machine

theorem step_of_port_eq {s : State} {i : Instr} {rest : List Byte} (h : s.port = encode i ++ rest) :
    step s = exec i { s with port := rest } :=
  step_of_decode_eq_ok (by rw [h, decode_encode_append])

/-- A command whose operand bytes are not all there is not taken (log 5). -/
theorem step_of_incomplete {s : State} {c : Byte} {cs : List Byte} (hp : s.port = c :: cs)
    (h : (c :: cs).length < commandLength c) : step s = .next s :=
  step_of_decode_eq_error (by rw [hp, decode_incomplete h])

/-- Settles O3: what the decoder reads is what the step executes. -/
theorem stepRunsTheDecodedCommand : Obligations.StepRunsTheDecodedCommand :=
  fun _ _ _ => ⟨step_of_decode_eq_ok, step_of_port_eq⟩

/-- Settles O5: an opcode byte of R70's longer lengths does not make a command by itself. -/
theorem portWithoutAWholeCommandWaits : Obligations.PortWithoutAWholeCommandWaits := by
  refine fun s => ⟨step_of_port_nil, fun c cs hp hc hl => step_of_incomplete hp ?_,
    fun c cs hp hc hl => step_of_incomplete hp ?_⟩
  · rw [commandLength_eq, if_pos hc, List.length_cons]
    omega
  · have hbyte : c ∉ ([0x01, 0x04, 0x20, 0x30] : List Byte) := fun hc' =>
      absurd hc' ((by decide : ∀ x ∈ ([0x02, 0x03] : List Byte), x ∉ ([0x01, 0x04, 0x20, 0x30] : List Byte)) c hc)
    rw [commandLength_eq, if_neg hbyte, if_pos hc, List.length_cons]
    omega

end Sys2Proof.Machine
end

section
/-! What executing a command can do, said once (R67, R106, R130, R131), and what follows for every command: the frames of
the families (R48), the responses of the command map (R65, R67), the parameters (R5) and the clock (R157). -/

namespace Sys2Proof.Machine

/-- The commands that only respond (R85 to R88, R140, R141). -/
def pureOps : List Op := [.nop, .enc, .dec, .chk, .valb, .rdsr]

/-- A response that R67's table gives a command. -/
def Response.Listed (o : Op) (r : Response) : Prop :=
  (r.status = .ok ∧ r.data.length = okDataLength o) ∨ (r.status ∈ otherStatuses o ∧ r.data = [])

/-- The ways a command can go from `s` to a next state. -/
inductive Executes : Instr → State → State → Prop where
  | pure {i : Instr} {s : State} (r : Response) (hi : i.op ∈ pureOps) (hr : r.Listed i.op) :
      Executes i s { s with responses := s.responses ++ [r] }
  | align (s : State) : Executes .align s (respond .ok [boolByte (alignProc s).1] (alignProc s).2)
  | receive {i : Instr} {s : State} (st : Status) (d : List Byte) (hi : i.op ∈ [Op.rdfr, Op.rxb])
      (hr : Response.Listed i.op ⟨st, d⟩) : Executes i s (respond st d (readFrame s).2)
  | clrcnt (s : State) :
      Executes .clrcnt s (respond .ok [] { s with swfc := { s.swfc with cnt := Counters.zero } })
  | srst (s : State) : Executes .srst s (respond .ok [] { s with swfc := Swfc.reset })
  | hold (b : Byte) {s : State} (hw : txWait s.params s.swfc (now s).1 = true) :
      Executes (.txb b) s (hold (.txb b) (now s).2)
  | transmit (b : Byte) {s : State} (hw : txWait s.params s.swfc (now s).1 = false) :
      Executes (.txb b) s (transmit b (now s).1 (now s).2)

theorem executes_rdsr (idx : Byte) (s : State) : ∃ t, exec (.rdsr idx) s = .next t ∧ Executes (.rdsr idx) s t := by
  have hi : (Instr.rdsr idx).op ∈ pureOps := by simp [Instr.op, pureOps]
  rcases Nat.lt_or_ge 10 idx.toNat with h | h
  · exact ⟨_, exec_rdsr_reserved h s, .pure ⟨.illegal, []⟩ hi (.inr ⟨by simp [Instr.op, otherStatuses], rfl⟩)⟩
  · obtain ⟨v, -, he⟩ := exec_rdsr_named h s
    exact ⟨_, he, .pure ⟨.ok, le32 v⟩ hi (.inl ⟨rfl, rfl⟩)⟩

/-- A command that responds what RDFR's body gives executes as a receive command. -/
theorem executes_receive {i : Instr} {s : State} (hi : i.op ∈ [Op.rdfr, Op.rxb])
    (hok : ∀ f u, readFrame s = (.ok f, u) →
      ∃ d, d.length = okDataLength i.op ∧ exec i s = .next (respond .ok d u))
    (herr : ∀ st u, readFrame s = (.error st, u) → exec i s = .next (respond st [] u)) :
    ∃ t, exec i s = .next t ∧ Executes i s t := by
  match h : readFrame s with
  | (.ok f, u) =>
    obtain rfl : (readFrame s).2 = u := congrArg Prod.snd h
    obtain ⟨d, hd, he⟩ := hok f _ h
    exact ⟨_, he, .receive .ok d hi (.inl ⟨rfl, hd⟩)⟩
  | (.error st, u) =>
    obtain rfl : (readFrame s).2 = u := congrArg Prod.snd h
    have hst : st ∈ otherStatuses i.op := by
      have hmap : otherStatuses i.op = [.noframe, .rxerr] :=
        (by decide : ∀ o ∈ [Op.rdfr, Op.rxb], otherStatuses o = [.noframe, .rxerr]) _ hi
      simpa [hmap] using readFrame_status (congrArg Prod.fst h)
    exact ⟨_, herr st _ h, .receive st [] hi (.inr ⟨hst, rfl⟩)⟩

/-- Every command completes in every state, in one of these ways (R9, R150). -/
theorem exec_executes (i : Instr) (s : State) : ∃ t, exec i s = .next t ∧ Executes i s t := by
  cases i with
  | nop => exact ⟨_, exec_nop s, .pure ⟨.ok, []⟩ (by decide) (.inl ⟨rfl, rfl⟩)⟩
  | enc b => exact ⟨_, exec_enc b s, .pure ⟨.ok, _⟩ (by simp [Instr.op, pureOps]) (.inl ⟨rfl, rfl⟩)⟩
  | dec f => exact ⟨_, exec_dec f s, .pure ⟨.ok, _⟩ (by simp [Instr.op, pureOps]) (.inl ⟨rfl, rfl⟩)⟩
  | chk f => exact ⟨_, exec_chk f s, .pure ⟨.ok, _⟩ (by simp [Instr.op, pureOps]) (.inl ⟨rfl, rfl⟩)⟩
  | valb w => exact ⟨_, exec_valb w s, .pure ⟨.ok, _⟩ (by simp [Instr.op, pureOps]) (.inl ⟨rfl, rfl⟩)⟩
  | align => exact ⟨_, exec_align s, .align s⟩
  | rdfr =>
    exact executes_receive (by decide) (fun f _ h => ⟨_, frameBytes_length f, exec_rdfr_of_ok h⟩)
      (fun _ _ => exec_rdfr_of_error)
  | rxb => exact executes_receive (by decide) (fun _ _ h => ⟨_, rfl, exec_rxb_of_ok h⟩) (fun _ _ => exec_rxb_of_error)
  | txb b =>
    rcases exec_txb_cases b s with ⟨hw, h⟩ | ⟨hw, h⟩
    · exact ⟨_, h, .hold b hw⟩
    · exact ⟨_, h, .transmit b hw⟩
  | rdsr idx => exact executes_rdsr idx s
  | clrcnt => exact ⟨_, exec_clrcnt s, .clrcnt s⟩
  | srst => exact ⟨_, exec_srst s, .srst s⟩

theorem executes_of_exec {i : Instr} {s t : State} (h : exec i s = .next t) : Executes i s t := by
  obtain ⟨u, hu, he⟩ := exec_executes i s
  cases hu.symm.trans h
  exact he

theorem exec_txb_of_wait (b : Byte) {s : State} (h : txWait s.params s.swfc (now s).1 = true) :
    exec (.txb b) s = .next (hold (.txb b) (now s).2) := by
  simp [exec, execTxb, h]

theorem exec_txb_of_not_wait (b : Byte) {s : State} (h : txWait s.params s.swfc (now s).1 = false) :
    exec (.txb b) s = .next (transmit b (now s).1 (now s).2) := by
  simp [exec, execTxb, h]

/-! ### What sampling, transmitting and RDFR's body leave unchanged -/

section frames
variable (s : State)

@[simp] theorem now_swfc : (now s).2.swfc = s.swfc := by
  obtain ⟨e, h, -⟩ := now_state s
  rw [h]

@[simp] theorem now_params : (now s).2.params = s.params := by
  obtain ⟨e, h, -⟩ := now_state s
  rw [h]

@[simp] theorem now_port : (now s).2.port = s.port := by
  obtain ⟨e, h, -⟩ := now_state s
  rw [h]

@[simp] theorem now_writes : (now s).2.writes = s.writes := by
  obtain ⟨e, h, -⟩ := now_state s
  rw [h]

@[simp] theorem now_reads : (now s).2.env.reads = s.env.reads := by
  obtain ⟨e, h, hreads, -⟩ := now_state s
  rw [h, hreads]

@[simp] theorem now_lastSample : (now s).2.env.lastSample = some (now s).1 := by
  obtain ⟨e, h, -, -, hlast⟩ := now_state s
  rw [h, hlast]

@[simp] theorem readFrame_params : (readFrame s).2.params = s.params := by
  obtain ⟨raw, cnt, reads, draws, h⟩ := readFrame_frame s
  rw [h]

@[simp] theorem readFrame_port : (readFrame s).2.port = s.port := by
  obtain ⟨raw, cnt, reads, draws, h⟩ := readFrame_frame s
  rw [h]

@[simp] theorem readFrame_writes : (readFrame s).2.writes = s.writes := by
  obtain ⟨raw, cnt, reads, draws, h⟩ := readFrame_frame s
  rw [h]

@[simp] theorem readFrame_txArmed : (readFrame s).2.swfc.txArmed = s.swfc.txArmed := by
  obtain ⟨raw, cnt, reads, draws, h⟩ := readFrame_frame s
  rw [h]

@[simp] theorem readFrame_txReadyAt : (readFrame s).2.swfc.txReadyAt = s.swfc.txReadyAt := by
  obtain ⟨raw, cnt, reads, draws, h⟩ := readFrame_frame s
  rw [h]

/-- RDFR's body leaves the write answers and the clock (R48). -/
theorem readFrame_env : ∃ reads draws, (readFrame s).2.env = { s.env with reads := reads, draws := draws } := by
  obtain ⟨raw, cnt, reads, draws, h⟩ := readFrame_frame s
  exact ⟨reads, draws, by rw [h]⟩

@[simp] theorem transmit_params (b : Byte) (t : Word) : (transmit b t s).params = s.params := by
  obtain ⟨a, e, h, -⟩ := transmit_state b t s
  rw [h]

@[simp] theorem transmit_port (b : Byte) (t : Word) : (transmit b t s).port = s.port := by
  obtain ⟨a, e, h, -⟩ := transmit_state b t s
  rw [h]

@[simp] theorem transmit_raw (b : Byte) (t : Word) : (transmit b t s).swfc.raw = s.swfc.raw := by
  obtain ⟨a, e, h, -⟩ := transmit_state b t s
  rw [h]

@[simp] theorem transmit_txReadyAt (b : Byte) (t : Word) :
    (transmit b t s).swfc.txReadyAt = t + BitVec.ofNat 32 s.params.txGapMs := by
  obtain ⟨a, e, h, -⟩ := transmit_state b t s
  rw [h]

@[simp] theorem transmit_reads (b : Byte) (t : Word) : (transmit b t s).env.reads = s.env.reads := by
  obtain ⟨a, e, h, hreads, -⟩ := transmit_state b t s
  rw [h, hreads]

@[simp] theorem transmit_lastSample (b : Byte) (t : Word) : (transmit b t s).env.lastSample = s.env.lastSample := by
  obtain ⟨a, e, h, -, -, hlast⟩ := transmit_state b t s
  rw [h, hlast]

/-- A transmission writes once, at its sample, the frame of its byte (R131). -/
theorem transmit_writes (b : Byte) (t : Word) :
    ∃ a, (transmit b t s).writes = s.writes ++ [⟨enc s.params b, a, t⟩] := by
  obtain ⟨a, e, h, -⟩ := transmit_state b t s
  exact ⟨a, by rw [h]⟩

/-- A transmission responds once, `OK` or `TXERR`, without data (R131). -/
theorem transmit_responses (b : Byte) (t : Word) : ∃ st, (st = .ok ∨ st = .txerr) ∧
    (transmit b t s).responses = s.responses ++ [⟨st, []⟩] := by
  obtain ⟨a, e, h, -⟩ := transmit_state b t s
  exact ⟨if writeOk a then .ok else .txerr, by cases writeOk a <;> simp, by rw [h]⟩

/-- A transmission counts as `CNT_TX` or as `CNT_TXERR` (R131). -/
theorem transmit_cnt (b : Byte) (t : Word) :
    ∃ k ∈ [Counter.tx, Counter.txerr], (transmit b t s).swfc.cnt = bump k s.swfc.cnt := by
  obtain ⟨a, e, h, -⟩ := transmit_state b t s
  exact ⟨if writeOk a then .tx else .txerr, by cases writeOk a <;> simp, by rw [h]⟩

end frames

/-! ### The parameters, the responses, the families' frames -/

section executes
variable {i : Instr} {s t : State}

theorem Executes.params_eq (h : Executes i s t) : t.params = s.params := by
  cases h with
  | hold b hw => rw [hold_params, now_params]
  | transmit b hw => rw [transmit_params, now_params]
  | receive st d hi hr => rw [respond_params, readFrame_params]
  | pure | align | clrcnt | srst => rfl

/-- A command responds once, as the command map says; or it is a TXB that holds (R65, R67, R130). -/
theorem Executes.responds_or_holds (h : Executes i s t) :
    (∃ r : Response, t.responses = s.responses ++ [r] ∧ r.Listed i.op ∧ t.port = s.port) ∨
      (∃ b, i = .txb b ∧ t.responses = s.responses ∧ t.swfc = s.swfc ∧ t.writes = s.writes ∧
        t.port = encode i ++ s.port) := by
  cases h with
  | pure r hi hr => exact .inl ⟨r, rfl, hr, rfl⟩
  | align => exact .inl ⟨_, rfl, .inl ⟨rfl, rfl⟩, rfl⟩
  | receive st d hi hr => exact .inl ⟨⟨st, d⟩, by simp, hr, by simp⟩
  | clrcnt => exact .inl ⟨_, rfl, .inl ⟨rfl, rfl⟩, rfl⟩
  | srst => exact .inl ⟨_, rfl, .inl ⟨rfl, rfl⟩, rfl⟩
  | hold b hw => exact .inr ⟨b, rfl, by simp, by simp, by simp, by simp⟩
  | transmit b hw =>
    obtain ⟨st, hst, hr⟩ := transmit_responses (now s).2 b (now s).1
    rw [now_responses] at hr
    refine .inl ⟨⟨st, []⟩, hr, ?_, by simp⟩
    rcases hst with rfl | rfl
    · exact .inl ⟨rfl, rfl⟩
    · exact .inr ⟨by simp [Instr.op, otherStatuses], rfl⟩

/-- The command map's responses have R65's form. -/
theorem Response.Listed.formed {o : Op} {r : Response} (h : r.Listed o) : r.Formed := by
  rcases h with ⟨hst, hd⟩ | ⟨-, hd⟩
  · refine ⟨?_, fun hne => absurd hst hne⟩
    rw [hd]
    cases o <;> decide
  · exact ⟨.inl (by rw [hd]; rfl), fun _ => hd⟩

/-- No command but TXB touches the port, the write side or the clock, and each answers at once. -/
theorem Executes.frame_of_ne_txb (h : Executes i s t) (hi : ∀ b, i ≠ .txb b) : ∃ m reads draws r,
    t = { s with
      swfc := m
      env := { s.env with reads := reads, draws := draws }
      responses := s.responses ++ [r] } := by
  cases h with
  | pure r => exact ⟨_, _, _, r, rfl⟩
  | align | clrcnt | srst => exact ⟨_, _, _, _, rfl⟩
  | receive st d =>
    obtain ⟨raw, cnt, reads, draws, h⟩ := readFrame_frame s
    exact ⟨_, _, _, ⟨st, d⟩, by rw [h]; rfl⟩
  | hold b | transmit b => exact absurd rfl (hi b)

end executes

/-- A step executes the decoded command in one of the ways above, or does what the SWFC does without one. -/
theorem step_cases_executes {s t : State} (h : step s = .next t) :
    (∃ i rest, decode s.port = .ok (i, rest) ∧ Executes i { s with port := rest } t) ∨
      (∃ e, decode s.port = .error e ∧ t = withoutCommand e s) := by
  rcases step_cases s with ⟨i, rest, hd, hs⟩ | ⟨e, hd, hs⟩
  · exact .inl ⟨i, rest, hd, executes_of_exec (hs ▸ h)⟩
  · cases hs.symm.trans h
    exact .inr ⟨e, hd, rfl⟩

@[simp] theorem withoutCommand_params (e : DecodeError) (s : State) : (withoutCommand e s).params = s.params := by
  cases e <;> rfl

@[simp] theorem withoutCommand_swfc (e : DecodeError) (s : State) : (withoutCommand e s).swfc = s.swfc := by
  cases e <;> rfl

@[simp] theorem withoutCommand_writes (e : DecodeError) (s : State) : (withoutCommand e s).writes = s.writes := by
  cases e <;> rfl

theorem step_params {s t : State} (h : step s = .next t) : t.params = s.params := by
  rcases step_cases_executes h with ⟨i, rest, -, he⟩ | ⟨e, -, rfl⟩
  · exact he.params_eq
  · exact withoutCommand_params e s

/-- RDFR makes at most one read (R106). -/
theorem readFrame_reads (s : State) : (readFrame s).2.env.reads = s.env.reads ∨
    ∃ r, s.env.reads = r :: (readFrame s).2.env.reads := by
  rcases readFrame_cases s with ⟨-, h⟩ | ⟨-, h⟩
  · rw [h]
    rcases extractFrame_cases (alignProc s).1 (alignProc s).2 with ⟨f, rest, -, -, hx⟩ | ⟨-, hx⟩ <;> rw [hx]
    · exact .inl rfl
    · exact .inl rfl
  · obtain ⟨raw, cnt, hx⟩ := takeRead_frame (transportRead (alignProc s).2).1 (transportRead (alignProc s).2).2
    rw [h, hx]
    rcases transportRead_cases (alignProc s).2 with ⟨a, rest, hr, ht⟩ | ⟨hr, ht⟩ <;> rw [ht]
    · exact .inr ⟨a, hr⟩
    · exact .inl rfl

/-- Settles O47, by the ways a command can execute. -/
theorem parametersNeverChange : Obligations.ParametersNeverChange := fun _ _ => step_params

/-- Settles O43: a command of the map responds in R65's form. -/
theorem everyCommandRespondsOnceOrHolds : Obligations.EveryCommandRespondsOnceOrHolds := by
  intro i s
  obtain ⟨t, ht, he⟩ := exec_executes i s
  refine ⟨t, ht, he.responds_or_holds.imp_left ?_⟩
  rintro ⟨r, hr, hl, hp⟩
  exact ⟨r, hr, hl.formed, hp⟩

/-- Settles O44: the one response of a command that responds is a listed one. -/
theorem responsesFollowTheCommandMap : Obligations.ResponsesFollowTheCommandMap := by
  intro i s t r ht hr
  rcases (executes_of_exec ht).responds_or_holds with ⟨r', hr', hl, -⟩ | ⟨b, -, hr', -⟩
  · obtain rfl : r = r' := by simpa [hr] using hr'
    exact hl
  · simp [hr] at hr'

/-- Settles O40: such a command can execute in one way only. -/
theorem pureCommandsChangeNothing : Obligations.PureCommandsChangeNothing := by
  intro i s t hi ht
  cases executes_of_exec ht with
  | pure r => exact ⟨r, rfl⟩
  | receive st d hi' => exact absurd hi' ((by decide : ∀ o ∈ pureOps, o ∉ [Op.rdfr, Op.rxb]) _ hi)
  | align | clrcnt | srst | hold | transmit => simp [Instr.op] at hi

/-- Settles O37: only TXB samples, and its sample is made from the last one. -/
theorem clockSamplesAreMonotonicAndOnlyTxbs : Obligations.ClockSamplesAreMonotonicAndOnlyTxbs := by
  intro i s t ht
  refine ⟨fun hi => ?_, ?_⟩
  · obtain ⟨m, reads, draws, r, rfl⟩ := (executes_of_exec ht).frame_of_ne_txb hi
    exact ⟨rfl, rfl⟩
  · rintro b rfl
    have hlast : t.env.lastSample = some (now s).1 := by
      cases executes_of_exec ht with
      | pure r hi => simp [Instr.op, pureOps] at hi
      | receive st d hi => simp [Instr.op] at hi
      | hold => simp
      | transmit => simp
    refine ⟨_, hlast, fun t0 h0 => ?_⟩
    rcases now_cases s with ⟨d, rest, -, h⟩ | ⟨-, h⟩ <;> rw [h, h0] <;> exact sampleAfter_monotonic t0 _

end Sys2Proof.Machine
end

section
/-! What a command counts and how long RAW gets: the counters' rows (R22), the purge (R46, R176), RAW's bound (R29), and
the families' frames (R48). -/

namespace Sys2Proof.Machine

/-- From `c` to `d` counter `k` keeps its value, or it is one of `ks` and grows by 1 (R22). -/
def CountsOnce (ks : List Counter) (c d : Counters) (k : Counter) : Prop :=
  counterValue d k = counterValue c k ∨ (k ∈ ks ∧ counterValue d k = counterValue c k + 1)

theorem CountsOnce.refl (ks : List Counter) (c : Counters) (k : Counter) : CountsOnce ks c c k := .inl rfl

theorem countsOnce_bump (j : Counter) (c : Counters) (k : Counter) : CountsOnce [j] c (bump j c) k := by
  by_cases h : k = j
  · subst h
    exact .inr ⟨by simp, counterValue_bump_self k c⟩
  · exact .inl (counterValue_bump_of_ne h c)

/-- Two events of different rows count each at most once. -/
theorem CountsOnce.trans {ks js : List Counter} {c d e : Counters} {k : Counter} (h : CountsOnce ks c d k)
    (h' : CountsOnce js d e k) (hdisj : ∀ j ∈ ks, j ∉ js) : CountsOnce (ks ++ js) c e k := by
  rcases h with h | ⟨hk, h⟩ <;> rcases h' with h' | ⟨hk', h'⟩
  · exact .inl (h'.trans h)
  · exact .inr ⟨List.mem_append_right _ hk', by rw [h', h]⟩
  · exact .inr ⟨List.mem_append_left _ hk, by rw [h', h]⟩
  · exact absurd hk' (hdisj k hk)

theorem CountsOnce.of_subset {ks js : List Counter} {c d : Counters} {k : Counter} (h : CountsOnce ks c d k)
    (hsub : ks ⊆ js) : CountsOnce js c d k := h.imp_right fun ⟨hk, h⟩ => ⟨hsub hk, h⟩

theorem rawAppend_countsOnce (l : List Byte) (s : State) (k : Counter) :
    CountsOnce [.purge] s.swfc.cnt (rawAppend l s).swfc.cnt k := by
  rw [rawAppend_cnt]
  split
  · exact countsOnce_bump .purge _ k
  · exact .refl _ _ k

section receive
variable (n : Nat) (b : Frame) (s : State)

theorem receive_raw : (receive n b s).swfc.raw = appendPurge s.params s.swfc.raw (delivered n b) := by
  unfold receive
  split <;> rfl

/-- A data answer counts its over-long report and its purge (R44, R46). -/
theorem receive_countsOnce (k : Counter) : CountsOnce [.trunc, .purge] s.swfc.cnt (receive n b s).swfc.cnt k := by
  have htrunc : CountsOnce [.trunc] s.swfc.cnt (if n > 4 then count .trunc s else s).swfc.cnt k := by
    split
    · exact countsOnce_bump .trunc _ k
    · exact .refl _ _ k
  exact htrunc.trans (rawAppend_countsOnce _ _ k) (by decide)

/-- Within the cap a data answer purges nothing (R46). -/
theorem receive_purge (h : s.swfc.raw.length + 4 ≤ s.params.rawCap) :
    (receive n b s).swfc.cnt.purge = s.swfc.cnt.purge := by
  have hfit : ¬ s.params.rawCap < (s.swfc.raw ++ delivered n b).length := by
    have := delivered_length_le n b
    rw [List.length_append]
    omega
  rw [receive_eq n b s rfl]
  exact if_neg hfit

/-- Within the cap a data answer appends all it delivers (R46). -/
theorem receive_raw_of_le (h : s.swfc.raw.length + 4 ≤ s.params.rawCap) :
    (receive n b s).swfc.raw = s.swfc.raw ++ delivered n b := by
  have := delivered_length_le n b
  rw [receive_raw, appendPurge_of_le (by omega)]

theorem receive_raw_length_le : (receive n b s).swfc.raw.length ≤ s.swfc.raw.length + 4 := by
  have := delivered_length_le n b
  have := appendPurge_length_le s.params s.swfc.raw (delivered n b)
  rw [receive_raw]
  omega

end receive

@[simp] theorem transportRead_swfc (s : State) : (transportRead s).2.swfc = s.swfc := by
  rcases transportRead_cases s with ⟨a, rest, -, h⟩ | ⟨-, h⟩ <;> rw [h]

theorem extractFrame_countsOnce (a : Bool) (s : State) (k : Counter) :
    CountsOnce [.frames] s.swfc.cnt (extractFrame a s).2.swfc.cnt k := by
  rcases extractFrame_cases a s with ⟨f, rest, -, -, h⟩ | ⟨-, h⟩ <;> rw [h]
  · exact countsOnce_bump .frames _ k
  · exact .refl _ _ k

theorem extractFrame_raw_length_le (a : Bool) (s : State) :
    (extractFrame a s).2.swfc.raw.length ≤ s.swfc.raw.length := by
  rcases extractFrame_cases a s with ⟨f, rest, -, hraw, h⟩ | ⟨-, h⟩ <;> rw [h]
  rw [hraw, List.length_append]
  exact Nat.le_add_left _ _

theorem alignProc_counterValue (s : State) {k : Counter} (h1 : k ≠ .filter) (h2 : k ≠ .resync) :
    counterValue (alignProc s).2.swfc.cnt k = counterValue s.swfc.cnt k :=
  alignLoop_otherCounters s.params s.swfc.raw s.swfc.cnt h1 h2

theorem alignProc_purge (s : State) : (alignProc s).2.swfc.cnt.purge = s.swfc.cnt.purge :=
  alignProc_counterValue s (k := .purge) (by decide) (by decide)

theorem alignProc_raw_length_le (s : State) : (alignProc s).2.swfc.raw.length ≤ s.swfc.raw.length :=
  alignLoop_length_le s.params s.swfc.raw s.swfc.cnt

/-- The end of RDFR's body, an ALIGN and an extraction. -/
theorem extractFrame_alignProc_countsOnce (s : State) {k : Counter} (h1 : k ≠ .filter) (h2 : k ≠ .resync) :
    CountsOnce [.frames] s.swfc.cnt (extractFrame (alignProc s).1 (alignProc s).2).2.swfc.cnt k :=
  CountsOnce.trans (ks := []) (.inl (alignProc_counterValue s h1 h2)) (extractFrame_countsOnce _ _ k) (by simp)

theorem takeRead_countsOnce (r : ReadAnswer) (s : State) {k : Counter} (h1 : k ≠ .filter) (h2 : k ≠ .resync) :
    CountsOnce [.frames, .trunc, .purge, .rxerr] s.swfc.cnt (takeRead r s).2.swfc.cnt k := by
  cases r with
  | fail => exact (countsOnce_bump .rxerr s.swfc.cnt k).of_subset (by decide)
  | data n b =>
    rw [takeRead_data]
    exact ((receive_countsOnce n b s k).trans (extractFrame_alignProc_countsOnce _ h1 h2) (by decide)).of_subset
      (by decide)

/-- RDFR's body counts each event of its rows at most once, besides what its two ALIGNs count (R22, R106). -/
theorem readFrame_countsOnce (s : State) {k : Counter} (h1 : k ≠ .filter) (h2 : k ≠ .resync) :
    CountsOnce [.frames, .trunc, .purge, .rxerr] s.swfc.cnt (readFrame s).2.swfc.cnt k := by
  rcases readFrame_cases s with ⟨-, h⟩ | ⟨-, h⟩ <;> rw [h]
  · exact (extractFrame_alignProc_countsOnce s h1 h2).of_subset (by decide)
  · have htake := takeRead_countsOnce (transportRead (alignProc s).2).1 (transportRead (alignProc s).2).2 h1 h2
    rw [transportRead_swfc] at htake
    exact CountsOnce.trans (ks := []) (.inl (alignProc_counterValue s h1 h2)) htake (by simp)

/-- A counter of no row of RDFR's is left. -/
theorem readFrame_counterValue (s : State) {k : Counter}
    (hk : k ∉ [Counter.filter, .resync, .frames, .trunc, .purge, .rxerr]) :
    counterValue (readFrame s).2.swfc.cnt k = counterValue s.swfc.cnt k := by
  simp only [List.mem_cons, not_or] at hk
  obtain ⟨h1, h2, hrow⟩ := hk
  rcases readFrame_countsOnce s h1 h2 with h | ⟨hmem, -⟩
  · exact h
  · simp only [List.mem_cons] at hmem
    exact absurd hmem (by tauto)

/-- From a cap of 7 up RDFR's one append fits, since it reads only with at most 3 bytes left (R176). -/
theorem readFrame_purge {s : State} (hcap : 7 ≤ s.params.rawCap) :
    (readFrame s).2.swfc.cnt.purge = s.swfc.cnt.purge := by
  have hend : ∀ u : State, (extractFrame (alignProc u).1 (alignProc u).2).2.swfc.cnt.purge = u.swfc.cnt.purge := by
    intro u
    rw [← alignProc_purge u]
    rcases extractFrame_cases (alignProc u).1 (alignProc u).2 with ⟨f, rest, -, -, h⟩ | ⟨-, h⟩ <;> rw [h]
    rfl
  rcases readFrame_cases s with ⟨-, h⟩ | ⟨hl, h⟩ <;> rw [h]
  · exact hend s
  · cases (transportRead (alignProc s).2).1 with
    | fail => exact (congrArg (·.cnt.purge) (transportRead_swfc _)).trans (alignProc_purge s)
    | data n b =>
      have hfit : (transportRead (alignProc s).2).2.swfc.raw.length + 4 ≤
          (transportRead (alignProc s).2).2.params.rawCap := by
        rw [transportRead_swfc, transportRead_params, alignProc_params]
        omega
      rw [takeRead_data, hend, receive_purge n b _ hfit, transportRead_swfc, alignProc_purge]

/-- RDFR's body leaves at most 7 bytes, or no more than it found (R29). -/
theorem readFrame_raw_length_le (s : State) : (readFrame s).2.swfc.raw.length ≤ max s.swfc.raw.length 7 := by
  have hend : ∀ u : State, (extractFrame (alignProc u).1 (alignProc u).2).2.swfc.raw.length ≤ u.swfc.raw.length :=
    fun u => (extractFrame_raw_length_le _ _).trans (alignProc_raw_length_le u)
  rcases readFrame_cases s with ⟨-, h⟩ | ⟨hl, h⟩ <;> rw [h]
  · exact le_max_of_le_left (hend s)
  · rw [← transportRead_swfc] at hl
    refine le_max_of_le_right ?_
    cases (transportRead (alignProc s).2).1 with
    | fail => exact (by omega : (transportRead (alignProc s).2).2.swfc.raw.length ≤ 7)
    | data n b =>
      have := receive_raw_length_le n b (transportRead (alignProc s).2).2
      have := hend (receive n b (transportRead (alignProc s).2).2)
      rw [takeRead_data]
      omega

/-- Settles O45: a receive command counts what RDFR's body counts, a TXB one of its two events, a pure one nothing. -/
theorem onlyTheNamedEventsCount : Obligations.OnlyTheNamedEventsCount := by
  intro i s t k ht hclr hsrst
  cases executes_of_exec ht with
  | pure r => exact .inl rfl
  | align =>
    by_cases hk : k ∈ [Counter.filter, .resync]
    · exact .inr (.inl ⟨hk, by decide⟩)
    · simp only [List.mem_cons, List.not_mem_nil, or_false, not_or] at hk
      exact .inl (alignProc_counterValue s hk.1 hk.2)
  | receive st d hi =>
    by_cases hk : k ∈ [Counter.filter, .resync]
    · exact .inr (.inl ⟨hk, List.mem_cons_of_mem _ hi⟩)
    · simp only [List.mem_cons, List.not_mem_nil, or_false, not_or] at hk
      exact (readFrame_countsOnce s hk.1 hk.2).imp_right fun ⟨hrow, hone⟩ => .inr ⟨hone, .inl ⟨hrow, hi⟩⟩
  | clrcnt => exact absurd rfl hclr
  | srst => exact absurd rfl hsrst
  | hold b => exact .inl (by rw [hold_swfc, now_swfc])
  | transmit b =>
    obtain ⟨j, hj, hcnt⟩ := transmit_cnt (now s).2 b (now s).1
    rw [hcnt, now_swfc]
    refine (countsOnce_bump j s.swfc.cnt k).imp_right fun ⟨hk, hone⟩ => .inr ⟨hone, .inr ⟨?_, rfl⟩⟩
    rwa [List.mem_singleton.mp hk]

/-- A command leaves the purge count or clears it, where the cap is at least 7. -/
theorem Executes.purge {i : Instr} {s t : State} (h : Executes i s t) (hcap : 7 ≤ s.params.rawCap) :
    t.swfc.cnt.purge = s.swfc.cnt.purge ∨ t.swfc.cnt.purge = 0 := by
  cases h with
  | pure => exact .inl rfl
  | align => exact .inl (alignProc_purge s)
  | receive => exact .inl (readFrame_purge hcap)
  | clrcnt | srst => exact .inr rfl
  | hold => exact .inl (by rw [hold_swfc, now_swfc])
  | transmit b =>
    obtain ⟨k, hk, hcnt⟩ := transmit_cnt (now s).2 b (now s).1
    rw [hcnt, now_swfc]
    have hne : Counter.purge ≠ k := by
      rintro rfl
      simp at hk
    exact .inl (counterValue_bump_of_ne hne s.swfc.cnt)

/-- Settles O48: RDFR reads only with at most 3 bytes in RAW, so its append stays within a cap of 7. -/
theorem noPurgeFromCapSevenUp : Obligations.NoPurgeFromCapSevenUp := by
  intro s t hcap ht
  rcases step_cases_executes ht with ⟨i, rest, -, he⟩ | ⟨e, -, rfl⟩
  · exact he.purge hcap
  · exact .inl (by rw [withoutCommand_swfc])

/-- Settles O41: ALIGN's procedure touches RAW and two counters, RDFR's body also its own rows and the read answers. -/
theorem receiveCommandsLeaveTheTransmitSide : Obligations.ReceiveCommandsLeaveTheTransmitSide := by
  intro i s t hi ht
  cases executes_of_exec ht with
  | align =>
    have hcnt := fun k => alignProc_counterValue s (k := k)
    exact ⟨rfl, rfl, hcnt .tx (by decide) (by decide), hcnt .txerr (by decide) (by decide), rfl, rfl, rfl, rfl, rfl, rfl,
      .inl rfl, fun _ => ⟨rfl, hcnt .frames (by decide) (by decide), hcnt .trunc (by decide) (by decide),
        hcnt .purge (by decide) (by decide), hcnt .rxerr (by decide) (by decide)⟩⟩
  | receive st d hi' =>
    obtain ⟨reads, draws, henv⟩ := readFrame_env s
    refine ⟨by simp, by simp, readFrame_counterValue s (k := .tx) (by decide),
      readFrame_counterValue s (k := .txerr) (by decide), by simp, by simp [henv], by simp [henv], by simp [henv],
      by simp, by simp, readFrame_reads s, ?_⟩
    rintro rfl
    exact absurd hi' (by decide)
  | pure r hi' => exact absurd hi' ((by decide : ∀ o ∈ [Op.align, Op.rdfr, Op.rxb], o ∉ pureOps) _ hi)
  | clrcnt | srst | hold | transmit => simp [Instr.op] at hi

/-- Settles O42: a transmission counts on the transmit side only, and a hold changes nothing there. -/
theorem txbLeavesTheReceiveSide : Obligations.TxbLeavesTheReceiveSide := by
  intro b s t ht
  cases executes_of_exec ht with
  | pure r hi => simp [Instr.op, pureOps] at hi
  | receive st d hi => simp [Instr.op] at hi
  | hold _ hw =>
    simp only [hold_swfc, hold_env, hold_params, hold_writes, hold_responses, hold_port, now_swfc, now_reads, now_params,
      now_writes, now_responses, now_port, true_and]
    exact .inr rfl
  | transmit _ hw =>
    obtain ⟨k, hk, hcnt⟩ := transmit_cnt (now s).2 b (now s).1
    obtain ⟨a, hwrites⟩ := transmit_writes (now s).2 b (now s).1
    obtain ⟨st, -, hresp⟩ := transmit_responses (now s).2 b (now s).1
    rw [now_swfc] at hcnt
    have hleft : ∀ j, j ∉ [Counter.tx, Counter.txerr] →
        counterValue (transmit b (now s).1 (now s).2).swfc.cnt j = counterValue s.swfc.cnt j := by
      intro j hj
      have hjk : j ≠ k := by
        rintro rfl
        exact hj hk
      rw [hcnt, counterValue_bump_of_ne hjk]
    exact ⟨by simp, hleft .frames (by decide), hleft .filter (by decide), hleft .resync (by decide),
      hleft .trunc (by decide), hleft .purge (by decide), hleft .rxerr (by decide), by simp, by simp,
      .inl ⟨_, ⟨st, []⟩, by rw [hwrites, now_writes], by rw [hresp, now_responses], by simp⟩⟩

end Sys2Proof.Machine
end

section
/-! The counters influence nothing but RDSR of a counter (R22): a simulation between a state and the same state with other
counters, operation by operation. -/

namespace Sys2Proof.Machine

/-- Extraction looks at RAW and the aligned bit only. -/
theorem extractFrame_of_raw_eq (a : Bool) {s u : State} (h : u.swfc.raw = s.swfc.raw) :
    (∃ f rest, extractFrame a s = (.ok f, count .frames { s with swfc := { s.swfc with raw := rest } }) ∧
        extractFrame a u = (.ok f, count .frames { u with swfc := { u.swfc with raw := rest } })) ∨
      (extractFrame a s = (.error .noframe, s) ∧ extractFrame a u = (.error .noframe, u)) := by
  simp only [extractFrame, h]
  cases a with
  | false => exact .inr ⟨rfl, rfl⟩
  | true =>
    cases takeFrame s.swfc.raw with
    | none => exact .inr ⟨rfl, rfl⟩
    | some x => exact .inl ⟨x.1, x.2, rfl, rfl⟩

/-- RDFR and RXB commute with a change `F` of the state that responding does not see and their body commutes with. -/
theorem exec_receive_commutes {i : Instr} {s s' u : State} {F : State → State}
    (hresp : ∀ st d v, respond st d (F v) = F (respond st d v)) (hp : u.params = s.params)
    (hread : readFrame u = ((readFrame s).1, F (readFrame s).2)) (hi : i = .rdfr ∨ i = .rxb)
    (hs : exec i s = .next s') : exec i u = .next (F s') := by
  match h : readFrame s with
  | (.ok f, v) =>
    rw [h] at hread
    rcases hi with rfl | rfl
    · cases (exec_rdfr_of_ok h).symm.trans hs
      rw [exec_rdfr_of_ok hread, hresp]
    · cases (exec_rxb_of_ok h).symm.trans hs
      rw [exec_rxb_of_ok hread, hresp, hp]
  | (.error st, v) =>
    rw [h] at hread
    rcases hi with rfl | rfl
    · cases (exec_rdfr_of_error h).symm.trans hs
      rw [exec_rdfr_of_error hread, hresp]
    · cases (exec_rxb_of_error h).symm.trans hs
      rw [exec_rxb_of_error hread, hresp]

/-- RDSR commutes with a change `F` of the state that neither responding nor the register it reads sees. -/
theorem exec_rdsr_commutes {idx : Byte} {s s' : State} {F : State → State}
    (hresp : ∀ st d v, respond st d (F v) = F (respond st d v))
    (hreg : statusReg (F s).swfc idx = statusReg s.swfc idx) (hs : exec (.rdsr idx) s = .next s') :
    exec (.rdsr idx) (F s) = .next (F s') := by
  simp only [exec, execRdsr, hreg] at hs ⊢
  cases hv : statusReg s.swfc idx with
  | none =>
    rw [hv] at hs
    cases hs
    exact congrArg _ (hresp .illegal [] s)
  | some v =>
    rw [hv] at hs
    cases hs
    exact congrArg _ (hresp .ok (le32 v) s)

/-- The state with other counters. -/
def withCnt (c : Counters) (s : State) : State := { s with swfc := { s.swfc with cnt := c } }

theorem sameButCounters_iff {s t : State} : SameButCounters s t ↔ ∃ c, t = withCnt c s :=
  ⟨fun h => ⟨t.swfc.cnt, h⟩, by rintro ⟨c, rfl⟩; rfl⟩

/-- Two results of an operation that differ in the state's counters alone. -/
def SameResult {α : Type} (x y : α × State) : Prop := ∃ c, y = (x.1, withCnt c x.2)

section operations
variable (c : Counters) (s : State)

theorem alignProc_withCnt : SameResult (alignProc s) (alignProc (withCnt c s)) := by
  obtain ⟨hbit, hraw⟩ := alignLoop_counters_irrelevant s.params s.swfc.raw c s.swfc.cnt
  refine ⟨(alignProc (withCnt c s)).2.swfc.cnt, ?_⟩
  simp only [alignProc, withCnt, hbit, hraw]

theorem extractFrame_withCnt (a : Bool) : SameResult (extractFrame a s) (extractFrame a (withCnt c s)) := by
  rcases extractFrame_of_raw_eq a (s := s) (u := withCnt c s) rfl with ⟨f, rest, h, h'⟩ | ⟨h, h'⟩ <;> rw [h, h']
  · exact ⟨bump .frames c, rfl⟩
  · exact ⟨c, rfl⟩

theorem receive_withCnt (n : Nat) (b : Frame) : ∃ d, receive n b (withCnt c s) = withCnt d (receive n b s) :=
  ⟨_, by rw [receive_eq n b s rfl, receive_eq n b (withCnt c s) rfl]; rfl⟩

/-- The end of RDFR's body, an ALIGN and an extraction. -/
theorem extractFrame_alignProc_withCnt : SameResult (extractFrame (alignProc s).1 (alignProc s).2)
    (extractFrame (alignProc (withCnt c s)).1 (alignProc (withCnt c s)).2) := by
  obtain ⟨d, hd⟩ := alignProc_withCnt c s
  rw [hd]
  exact extractFrame_withCnt d _ _

theorem takeRead_withCnt (r : ReadAnswer) : SameResult (takeRead r s) (takeRead r (withCnt c s)) := by
  cases r with
  | fail => exact ⟨bump .rxerr c, rfl⟩
  | data n b =>
    obtain ⟨d, hd⟩ := receive_withCnt c s n b
    rw [takeRead_data, takeRead_data, hd]
    exact extractFrame_alignProc_withCnt d _

theorem transportRead_withCnt : transportRead (withCnt c s) = ((transportRead s).1, withCnt c (transportRead s).2) := by
  rcases transportRead_cases s with ⟨a, rest, hr, h⟩ | ⟨hr, h⟩ <;>
    simp only [transportRead, withCnt, hr]

theorem readFrame_withCnt : SameResult (readFrame s) (readFrame (withCnt c s)) := by
  obtain ⟨d, hd⟩ := alignProc_withCnt c s
  have hraw : (alignProc (withCnt c s)).2.swfc.raw = (alignProc s).2.swfc.raw := by rw [hd]; rfl
  rcases readFrame_cases s with ⟨hl, h⟩ | ⟨hl, h⟩ <;>
    rcases readFrame_cases (withCnt c s) with ⟨hl', h'⟩ | ⟨hl', h'⟩
  · rw [h, h']
    exact extractFrame_alignProc_withCnt c s
  · rw [hraw] at hl'; omega
  · rw [hraw] at hl'; omega
  · rw [h, h', hd, transportRead_withCnt]
    exact takeRead_withCnt d _ _

theorem now_withCnt : now (withCnt c s) = ((now s).1, withCnt c (now s).2) := by
  rcases now_cases s with ⟨d, rest, hr, h⟩ | ⟨hr, h⟩ <;>
    simp only [now, withCnt, hr]

theorem writeAnswer_withCnt : writeAnswer (withCnt c s) = ((writeAnswer s).1, withCnt c (writeAnswer s).2) := by
  rcases writeAnswer_cases s with ⟨a, rest, hr, h⟩ | ⟨hr, h⟩ <;>
    simp only [writeAnswer, withCnt, hr]

theorem transmit_withCnt (b : Byte) (t : Word) : ∃ d, transmit b t (withCnt c s) = withCnt d (transmit b t s) := by
  simp only [transmit, transportWrite, writeAnswer_withCnt]
  cases writeOk (writeAnswer s).1
  · exact ⟨_, rfl⟩
  · exact ⟨_, rfl⟩

/-- The registers from index 8 up are no counters (R23). -/
theorem statusReg_withCnt {idx : Byte} (h : 8 ≤ idx.toNat) : statusReg (withCnt c s).swfc idx = statusReg s.swfc idx := by
  unfold statusReg
  obtain ⟨k, hk⟩ := Nat.exists_eq_add_of_le' h
  rw [hk]
  match k with
  | 0 | 1 | 2 | _ + 3 => rfl

end operations

/-- Every command but RDSR of a counter goes on in the same way whatever the counters hold (R22). -/
theorem exec_withCnt {i : Instr} (c : Counters) {s s' : State} (hi : ∀ idx, i = .rdsr idx → 8 ≤ idx.toNat)
    (hs : exec i s = .next s') : ∃ d, exec i (withCnt c s) = .next (withCnt d s') := by
  cases i with
  | nop | enc | dec | chk | valb =>
    cases hs
    exact ⟨c, rfl⟩
  | align =>
    cases (exec_align s).symm.trans hs
    obtain ⟨d, hd⟩ := alignProc_withCnt c s
    exact ⟨d, by rw [exec_align, hd]; rfl⟩
  | rdfr =>
    obtain ⟨d, hd⟩ := readFrame_withCnt c s
    exact ⟨d, exec_receive_commutes (s := s) (F := withCnt d) (fun _ _ _ => rfl) rfl hd (.inl rfl) hs⟩
  | rxb =>
    obtain ⟨d, hd⟩ := readFrame_withCnt c s
    exact ⟨d, exec_receive_commutes (s := s) (F := withCnt d) (fun _ _ _ => rfl) rfl hd (.inr rfl) hs⟩
  | txb b =>
    rcases exec_txb_cases b s with ⟨hw, h⟩ | ⟨hw, h⟩ <;> cases h.symm.trans hs
    · have hw' : txWait (withCnt c s).params (withCnt c s).swfc (now (withCnt c s)).1 = true := by
        rw [now_withCnt]
        exact hw
      exact ⟨c, by rw [exec_txb_of_wait b hw', now_withCnt]; rfl⟩
    · have hw' : txWait (withCnt c s).params (withCnt c s).swfc (now (withCnt c s)).1 = false := by
        rw [now_withCnt]
        exact hw
      obtain ⟨d, hd⟩ := transmit_withCnt c (now s).2 b (now s).1
      exact ⟨d, by rw [exec_txb_of_not_wait b hw', now_withCnt, hd]⟩
  | rdsr idx => exact ⟨c, exec_rdsr_commutes (fun _ _ _ => rfl) (statusReg_withCnt c s (hi idx rfl)) hs⟩
  | clrcnt =>
    cases hs
    exact ⟨Counters.zero, rfl⟩
  | srst =>
    cases hs
    exact ⟨Counters.zero, rfl⟩

theorem withoutCommand_withCnt (e : DecodeError) (c : Counters) (s : State) :
    withoutCommand e (withCnt c s) = withCnt c (withoutCommand e s) := by
  cases e <;> rfl

/-- Settles O46: each operation of a step commutes with a change of the counters, and only RDSR of a counter shows one. -/
theorem countersNeverInfluenceBehaviour : Obligations.CountersNeverInfluenceBehaviour := by
  intro s t s' hst hs hi
  obtain ⟨c, rfl⟩ := sameButCounters_iff.mp hst
  suffices ∃ d, step (withCnt c s) = .next (withCnt d s') by
    obtain ⟨d, hd⟩ := this
    exact ⟨_, hd, sameButCounters_iff.mpr ⟨d, rfl⟩⟩
  rcases step_cases s with ⟨i, rest, hd, hstep⟩ | ⟨e, hd, hstep⟩
  · obtain ⟨d, h⟩ := exec_withCnt c (fun idx hidx => hi idx rest (hidx ▸ hd)) (hstep ▸ hs)
    exact ⟨d, (step_of_decode_eq_ok (s := withCnt c s) hd).trans h⟩
  · cases hstep.symm.trans hs
    exact ⟨c, (step_of_decode_eq_error (s := withCnt c s) hd).trans (by rw [withoutCommand_withCnt])⟩

end Sys2Proof.Machine
end

section
/-! The invariant (R5, R29, R65, R131, R132): each of its parts is kept by every way a command can execute. -/

namespace Sys2Proof.Machine

section executes
variable {i : Instr} {s t : State}

/-- Only a TXB whose sample does not wait writes, once, the encoding of its byte (R131). -/
theorem Executes.writes_cases (h : Executes i s t) : t.writes = s.writes ∨ ∃ b a,
    txWait s.params s.swfc (now s).1 = false ∧ t.writes = s.writes ++ [⟨enc s.params b, a, (now s).1⟩] := by
  cases h with
  | pure | align | clrcnt | srst => exact .inl rfl
  | receive => exact .inl (readFrame_writes s)
  | hold => exact .inl (now_writes s)
  | transmit b hw =>
    obtain ⟨a, ha⟩ := transmit_writes (now s).2 b (now s).1
    rw [now_params, now_writes] at ha
    exact .inr ⟨b, a, hw, ha⟩

theorem Executes.raw_length_le (h : Executes i s t) : t.swfc.raw.length ≤ max s.swfc.raw.length 7 := by
  cases h with
  | pure => exact le_max_left _ _
  | align => exact le_max_of_le_left (alignProc_raw_length_le s)
  | receive => exact readFrame_raw_length_le s
  | clrcnt => exact le_max_left _ _
  | srst => exact Nat.zero_le _
  | hold | transmit => simp

/-- A write arms the gap it links to, SRST disarms it, and no other command touches either side of the link. -/
theorem Executes.txLinked (h : Executes i s t) (hs : TxLinked s) : TxLinked t := by
  cases h with
  | pure | align | clrcnt => exact hs
  | receive => simpa [TxLinked] using hs
  | srst => exact fun harmed => absurd harmed Bool.false_ne_true
  | hold => simpa [TxLinked] using hs
  | transmit b =>
    intro _
    obtain ⟨a, ha⟩ := transmit_writes (now s).2 b (now s).1
    exact ⟨_, by rw [ha, List.getLast?_concat], by rw [transmit_txReadyAt, transmit_params]⟩

theorem Executes.keeps_inv (h : Executes i s t) (hs : Inv s) : Inv t where
  params := h.params_eq ▸ hs.params
  rawBounded := h.raw_length_le.trans (max_le hs.rawBounded le_rfl)
  txLinked := h.txLinked hs.txLinked
  formed := by
    rcases h.responds_or_holds with ⟨r, hr, hl, -⟩ | ⟨b, -, hr, -⟩ <;> rw [hr]
    · exact List.forall_mem_append.mpr ⟨hs.formed, List.forall_mem_singleton.mpr hl.formed⟩
    · exact hs.formed
  encoded := by
    rw [h.params_eq]
    rcases h.writes_cases with hw | ⟨b, a, -, hw⟩ <;> rw [hw]
    · exact hs.encoded
    · exact List.forall_mem_append.mpr ⟨hs.encoded, List.forall_mem_singleton.mpr ⟨b, rfl⟩⟩

end executes

/-- The port is no part of the invariant. -/
theorem Inv.with_port {s : State} (h : Inv s) (port : List Byte) : Inv { s with port := port } :=
  ⟨h.params, h.rawBounded, h.txLinked, h.formed, h.encoded⟩

theorem withoutCommand_keeps_inv (e : DecodeError) {s : State} (h : Inv s) : Inv (withoutCommand e s) := by
  cases e with
  | illegalOpcode c =>
    have hform : Response.Formed ⟨.illegal, []⟩ := ⟨.inl rfl, fun _ => rfl⟩
    exact { h with formed := List.forall_mem_append.mpr ⟨h.formed, List.forall_mem_singleton.mpr hform⟩ }
  | noCommand | incomplete => exact h

/-- Settles O49, part by part of the invariant. -/
theorem everyStepKeepsTheInvariant : Obligations.EveryStepKeepsTheInvariant := by
  intro s t hs ht
  rcases step_cases_executes ht with ⟨i, rest, -, he⟩ | ⟨e, -, rfl⟩
  · exact he.keeps_inv (hs.with_port rest)
  · exact withoutCommand_keeps_inv e hs

/-- Settles O50: nothing has been received, armed, responded or written yet. -/
theorem resetMeetsTheInvariant : Obligations.ResetMeetsTheInvariant where
  params := default_valid
  rawBounded := Nat.zero_le _
  txLinked := fun harmed => absurd harmed (by decide)
  formed := by simp [State.reset]
  encoded := by simp [State.reset]

end Sys2Proof.Machine
end

section
/-! TXB (R130, R131): its sample and the wait, what it does with listed inputs, and with unlisted ones (log 2). -/

namespace Sys2Proof.Machine

/-- A draw is cut to 31 bits (log 3). -/
theorem and_mask31_eq (d : Word) : d &&& 0x7FFFFFFF = BitVec.ofNat 32 (d.toNat % 2 ^ 31) := by
  apply BitVec.eq_of_toNat_eq
  have hmask : (0x7FFFFFFF : Word).toNat = 2 ^ 31 - 1 := by decide
  rw [BitVec.toNat_and, hmask, Nat.and_two_pow_sub_one_eq_mod, BitVec.toNat_ofNat]
  omega

theorem sampleAfter_some (t0 d : Word) : sampleAfter (some t0) d = t0 + BitVec.ofNat 32 (d.toNat % 2 ^ 31) := by
  rw [← and_mask31_eq]
  rfl

/-- The two clauses by which the statements give a sample. -/
theorem sampleAfter_eq {last : Option Word} {d t : Word} (hfirst : last = none → t = d)
    (hlater : ∀ t0, last = some t0 → t = t0 + BitVec.ofNat 32 (d.toNat % 2 ^ 31)) : sampleAfter last d = t := by
  cases last with
  | none => exact (hfirst rfl).symm
  | some t0 => rw [sampleAfter_some, hlater t0 rfl]

/-- The state once a listed draw has given sample `t`, with the draws that are left. -/
def sampled (t : Word) (clock : List Word) (s : State) : State :=
  { s with env := { s.env with clock := clock, lastSample := some t } }

theorem now_of_clock {s : State} {d : Word} {clock : List Word} (h : s.env.clock = d :: clock) :
    now s = (sampleAfter s.env.lastSample d, sampled (sampleAfter s.env.lastSample d) clock s) := by
  simp [now, h, sampled]

theorem txWait_eq_true_iff {p : Params} {m : Swfc} {t : Word} : txWait p m t = true ↔
    m.txArmed = true ∧ 1 ≤ (m.txReadyAt - t).toNat ∧ (m.txReadyAt - t).toNat ≤ p.txGapMs := by
  simp [txWait, and_assoc]

theorem txWait_eq_false_iff {p : Params} {m : Swfc} {t : Word} : txWait p m t = false ↔
    ¬ (m.txArmed = true ∧ 1 ≤ (m.txReadyAt - t).toNat ∧ (m.txReadyAt - t).toNat ≤ p.txGapMs) := by
  rw [← txWait_eq_true_iff, Bool.not_eq_true]

/-- A transmission with a listed write answer, field by field (R131). -/
theorem transmit_of_writes (b : Byte) (t : Word) {s : State} {a : WriteAnswer} {answers : List WriteAnswer}
    (h : s.env.writes = a :: answers) : transmit b t s = { s with
      swfc := { s.swfc with
        txArmed := true
        txReadyAt := t + BitVec.ofNat 32 s.params.txGapMs
        cnt := bump (if writeOk a then .tx else .txerr) s.swfc.cnt }
      env := { s.env with writes := answers }
      writes := s.writes ++ [⟨enc s.params b, a, t⟩]
      responses := s.responses ++ [⟨if writeOk a then .ok else .txerr, []⟩] } := by
  have hwrite : transportWrite (enc s.params b) t s = (writeOk a, { s with
      env := { s.env with writes := answers }, writes := s.writes ++ [⟨enc s.params b, a, t⟩] }) := by
    simp [transportWrite, writeAnswer, h]
  unfold transmit
  rw [hwrite]
  cases writeOk a <;> rfl

section listed
variable {s : State} {b : Byte} {d t : Word} {clock : List Word} (hclock : s.env.clock = d :: clock)
  (ht : sampleAfter s.env.lastSample d = t)
include hclock ht

theorem exec_txb_listed_of_wait (hwait : txWait s.params s.swfc t = true) :
    exec (.txb b) s = .next (hold (.txb b) (sampled t clock s)) := by
  subst ht
  rw [exec_txb_of_wait b (by rwa [now_of_clock hclock]), now_of_clock hclock]

theorem exec_txb_listed_of_not_wait (hwait : txWait s.params s.swfc t = false) :
    exec (.txb b) s = .next (transmit b t (sampled t clock s)) := by
  subst ht
  rw [exec_txb_of_not_wait b (by rwa [now_of_clock hclock]), now_of_clock hclock]

/-- A step of a TXB whose sample waits consumes the draw only (R130, log 6). -/
theorem step_txb_of_wait {port : List Byte} (hport : s.port = 0x20 :: b :: port)
    (hwait : txWait s.params s.swfc t = true) : step s = .next (sampled t clock s) := by
  rw [step_of_port_eq (i := .txb b) hport,
    exec_txb_listed_of_wait (s := { s with port := port }) hclock ht hwait, hold]
  simp only [sampled, hport]
  rfl

/-- A step of a TXB whose sample does not wait transmits (R131). -/
theorem step_txb_of_not_wait {port : List Byte} (hport : s.port = 0x20 :: b :: port)
    (hwait : txWait s.params s.swfc t = false) :
    ∃ (u : State) (a : WriteAnswer), step s = .next u ∧ u.port = port ∧
      u.writes = s.writes ++ [⟨enc s.params b, a, t⟩] ∧
      (u.responses = s.responses ++ [⟨.ok, []⟩] ∨ u.responses = s.responses ++ [⟨.txerr, []⟩]) := by
  obtain ⟨a, hwrites⟩ := transmit_writes (sampled t clock { s with port := port }) b t
  obtain ⟨st, hst, hresp⟩ := transmit_responses (sampled t clock { s with port := port }) b t
  refine ⟨_, a, (step_of_port_eq (i := .txb b) hport).trans
    (exec_txb_listed_of_not_wait (s := { s with port := port }) hclock ht hwait), transmit_port _ _ _, hwrites, ?_⟩
  rw [hresp]
  rcases hst with rfl | rfl
  · exact .inl rfl
  · exact .inr rfl

end listed

/-- Settles O30: with both inputs listed the sample is the one given, and the transmission is R131's. -/
theorem txbTransmitsWhenTheGapHasPassed : Obligations.TxbTransmitsWhenTheGapHasPassed := by
  intro s b rest d t clock a answers hclock hwrites hfirst hlater hwait
  have hexec := exec_txb_listed_of_not_wait (b := b) hclock (sampleAfter_eq hfirst hlater)
    (txWait_eq_false_iff.mpr hwait)
  rw [transmit_of_writes b t (s := sampled t clock s) hwrites] at hexec
  refine ⟨rfl, ?_, ?_⟩
  · rintro rfl
    exact hexec
  · rintro sent rfl
    exact hexec

/-- Settles O31: the step samples the clock and puts the TXB's bytes back. -/
theorem txbHoldsWithoutEffect : Obligations.TxbHoldsWithoutEffect := by
  intro s b rest d t clock hclock hport hfirst hlater harmed hlow hhigh
  exact step_txb_of_wait hclock (sampleAfter_eq hfirst hlater) hport (txWait_eq_true_iff.mpr ⟨harmed, hlow, hhigh⟩)

/-! ### Unlisted inputs (log 2) -/

/-- TXB depends on its state through the sample, the parameters and the SWFC. -/
theorem exec_txb_congr (b : Byte) {s u : State} (hnow : now s = now u) (hp : s.params = u.params)
    (hm : s.swfc = u.swfc) : exec (.txb b) s = exec (.txb b) u := by
  simp only [exec, execTxb, hnow, hp, hm]

/-- A transmission depends on its state through the write's answer and the parameters. -/
theorem transmit_congr (b : Byte) (t : Word) {s u : State} (h : writeAnswer s = writeAnswer u)
    (hp : s.params = u.params) : transmit b t s = transmit b t u := by
  simp only [transmit, transportWrite, h, hp]

theorem now_unlisted {s : State} (h : s.env.clock = []) :
    now s = now { s with env := { s.env with clock := [Config.freeClock s.env.draws], draws := s.env.draws + 1 } } := by
  simp [now, h]

/-- The state with one write answer listed, its draw taken. -/
def listingWrite (a : WriteAnswer) (s : State) : State :=
  { s with env := { s.env with writes := [a], draws := s.env.draws + 1 } }

theorem writeAnswer_unlisted {s : State} (h : s.env.writes = []) :
    writeAnswer s = writeAnswer (listingWrite (Config.freeWrite s.env.draws) s) := by
  simp [writeAnswer, h, listingWrite]

/-- Settles O32: the free values are the draw and the answer. -/
theorem unlistedTxbInputsAreSomeInputs : Obligations.UnlistedTxbInputsAreSomeInputs := by
  intro s b
  refine ⟨fun hclock => ⟨_, exec_txb_congr b (now_unlisted hclock) rfl rfl⟩, fun hclock hwrites hwrote => ?_⟩
  obtain ⟨d, rest, hclock⟩ := List.exists_cons_of_ne_nil hclock
  cases hwait : txWait s.params s.swfc (sampleAfter s.env.lastSample d) with
  | true => exact (hwrote _ (exec_txb_listed_of_wait hclock rfl hwait) rfl).elim
  | false =>
    have hexec := exec_txb_listed_of_not_wait (b := b) hclock rfl hwait
    have hexec' := exec_txb_listed_of_not_wait (b := b) (s := listingWrite (Config.freeWrite s.env.draws) s) hclock rfl
      hwait
    refine ⟨Config.freeWrite s.env.draws, hexec.trans (.trans (congrArg _ ?_) hexec'.symm)⟩
    exact transmit_congr b _ (writeAnswer_unlisted (s := sampled _ rest s) hwrites) rfl

/-! ### The gap (R130, R132) -/

/-- A sample that does not wait lies at least the gap after the write that armed it, modulo 2^32 (R132). -/
theorem gap_le_of_not_txWait {p : Params} {m : Swfc} {t0 t : Word} (hgap : p.txGapMs < 2 ^ 31) (harmed : m.txArmed = true)
    (hready : m.txReadyAt = t0 + BitVec.ofNat 32 p.txGapMs) (hwait : txWait p m t = false) :
    p.txGapMs ≤ (t - t0).toNat := by
  rw [txWait_eq_false_iff, hready] at hwait
  simp only [harmed, true_and] at hwait
  bv_omega

/-- Settles O34: both conditions say that less than the gap has passed since the write. -/
theorem waitingAgreesWithAfterInTheNormalRange : Obligations.WaitingAgreesWithAfterInTheNormalRange := by
  intro p m t0 t hp harmed hready hrange
  have hgap := hp.gapLt
  rw [txWait_eq_false_iff, after, decide_eq_true_iff, hready]
  simp only [harmed, true_and]
  bv_omega

/-- Settles O35: a step writes only at a sample that does not wait for the gap of the last write. -/
theorem consecutiveWritesKeepTheGap : Obligations.ConsecutiveWritesKeepTheGap := by
  intro s t e1 hs harmed he1 ht hwrote
  obtain ⟨e, he, hready⟩ := hs.txLinked harmed
  obtain rfl : e = e1 := Option.some.inj (he.symm.trans he1)
  rcases step_cases_executes ht with ⟨i, rest, -, hexec⟩ | ⟨err, -, rfl⟩
  · rcases hexec.writes_cases with hw | ⟨b, a, hwait, hw⟩
    · exact absurd hw hwrote
    · exact ⟨_, hw, gap_le_of_not_txWait hs.params.gapLt harmed hready hwait⟩
  · exact absurd (withoutCommand_writes err s) hwrote

/-- Settles O36: SRST disarms the gap, so the sample cannot wait. -/
theorem txbAfterResetNeverHolds : Obligations.TxbAfterResetNeverHolds := by
  intro s t b ht
  cases (exec_srst s).symm.trans ht
  have hidle : ∀ u : State, u.swfc = Swfc.reset → txWait u.params u.swfc (now u).1 = false := by
    intro u hu
    rw [hu]
    rfl
  obtain ⟨a, ha⟩ := transmit_writes (now (respond .ok [] { s with swfc := Swfc.reset })).2 b
    (now (respond .ok [] { s with swfc := Swfc.reset })).1
  exact ⟨_, _, exec_txb_of_not_wait b (hidle _ rfl), by rw [ha, now_writes], by rw [now_params]; rfl, by simp⟩

/-- While a held TXB waits, the clock's advance brings the deadline nearer and cannot pass it. -/
theorem remaining_of_txWait {p : Params} {m : Swfc} {t0 : Word} {n : Nat} (hgap : p.txGapMs < 2 ^ 31) (hn : n < 2 ^ 31)
    (hle : (m.txReadyAt - t0).toNat ≤ p.txGapMs) (hwait : txWait p m (t0 + BitVec.ofNat 32 n) = true) :
    (m.txReadyAt - (t0 + BitVec.ofNat 32 n)).toNat + n = (m.txReadyAt - t0).toNat := by
  obtain ⟨-, hlow, hhigh⟩ := txWait_eq_true_iff.mp hwait
  bv_omega

/-- Settles O33, by induction on the draws: each either ends the hold or brings the deadline nearer by its amount. -/
theorem everyHoldEndsWhenTheClockAdvances : Obligations.EveryHoldEndsWhenTheClockAdvances := by
  intro s b rest t0 ds more hp hport harmed hlast hle hclock hne hsum
  induction ds generalizing s t0 with
  | nil => exact absurd rfl hne
  | cons d ds ih =>
    have hmod : d.toNat % 2 ^ 31 < 2 ^ 31 := Nat.mod_lt _ (by decide)
    have hsample : sampleAfter s.env.lastSample d = t0 + BitVec.ofNat 32 (d.toNat % 2 ^ 31) := by
      rw [hlast, sampleAfter_some]
    cases hwait : txWait s.params s.swfc (t0 + BitVec.ofNat 32 (d.toNat % 2 ^ 31)) with
    | false =>
      obtain ⟨t, a, hstep, ht⟩ := step_txb_of_not_wait hclock hsample hport hwait
      exact ⟨1, t, a, _, by simp, runSteps_one hstep, ht⟩
    | true =>
      have hstep := step_txb_of_wait hclock hsample hport hwait
      obtain ⟨-, hlow, hhigh⟩ := txWait_eq_true_iff.mp hwait
      have hrem := remaining_of_txWait hp.gapLt hmod hle hwait
      rw [List.map_cons, List.sum_cons] at hsum
      have hne' : ds ≠ [] := by
        rintro rfl
        simp only [List.map_nil, List.sum_nil] at hsum
        omega
      obtain ⟨k, t, a, w, hk, hrun, ht⟩ := ih (sampled _ (ds ++ more) s) _ hp hport harmed rfl hhigh rfl hne' (by
        change (s.swfc.txReadyAt - _).toNat ≤ _
        omega)
      exact ⟨k + 1, t, a, w, by simpa using hk, (runSteps_succ hstep k).trans hrun, ht⟩

/-- Settles O38: a failed write emits the bytes of its frame up to its count. -/
theorem writeEventsEmitTheFrameOrAPrefix : Obligations.WriteEventsEmitTheFrameOrAPrefix := by
  refine fun f t => ⟨rfl, fun sent => List.take_prefix _ _, fun bytes hbytes => ?_⟩
  have hlen : bytes.length < 5 := Nat.lt_succ_of_le hbytes.length_le
  exact ⟨⟨bytes.length, hlen⟩, (List.prefix_iff_eq_take.mp hbytes).symm⟩

end Sys2Proof.Machine
end

section
/-! Where the bytes go (R102, R110): ALIGN drops and counts, RDFR's body drops, returns or keeps every byte it had or
read. -/

namespace Sys2Proof.Machine

/-- The loop drops bytes off the front and counts each in one of its two counters (R102). -/
theorem alignLoop_drops (p : Params) (raw : List Byte) (c : Counters) : ∃ dropped,
    raw = dropped ++ (alignLoop p raw c).2.1 ∧
    (alignLoop p raw c).2.2.filter + (alignLoop p raw c).2.2.resync =
      c.filter + c.resync + BitVec.ofNat 32 dropped.length := by
  induction raw, c using alignLoop_induct p with
  | nil c => exact ⟨[], by simp⟩
  | invalid w rest c hv ih =>
    obtain ⟨dropped, hraw, hcnt⟩ := ih
    rw [alignLoop_invalid p hv]
    refine ⟨w :: dropped, by rw [List.cons_append, ← hraw], ?_⟩
    rw [hcnt, List.length_cons, BitVec.ofNat_add]
    change c.filter + 1 + c.resync + _ = _
    bv_omega
  | short w rest c hv hl => exact ⟨[], by simp [alignLoop_short p hv hl]⟩
  | pass f rest c hv hf => exact ⟨[], by simp [alignLoop_pass p hv hf]⟩
  | fail f rest c hv hf ih =>
    obtain ⟨dropped, hraw, hcnt⟩ := ih
    rw [alignLoop_fail p hv hf]
    refine ⟨f.f0 :: dropped, by rw [List.cons_append, ← hraw]; rfl, ?_⟩
    rw [hcnt, List.length_cons, BitVec.ofNat_add]
    change c.filter + (c.resync + 1) + _ = _
    bv_omega

/-- An invalid byte in front is dropped. -/
theorem alignLoop_length_lt_of_invalid {p : Params} {w : Byte} (h : validByte p w = false) (rest : List Byte)
    (c : Counters) : (alignLoop p (w :: rest) c).2.1.length < (w :: rest).length := by
  rw [alignLoop_invalid p h]
  exact Nat.lt_succ_of_le (alignLoop_length_le p rest _)

/-- A frame in front that fails the trial loses at least its leading byte. -/
theorem alignLoop_length_lt_of_fail {p : Params} {f : Frame} (h : rtOk p f = false) (rest : List Byte) (c : Counters) :
    (alignLoop p (frameBytes f ++ rest) c).2.1.length < (frameBytes f ++ rest).length := by
  cases hv : validByte p f.f0 with
  | false => exact alignLoop_length_lt_of_invalid hv _ c
  | true =>
    rw [alignLoop_fail p hv h]
    exact Nat.lt_succ_of_le (alignLoop_length_le p _ _)

/-- Settles O21, by the loop's account of what it drops. -/
theorem alignCountsEveryRemovedByte : Obligations.AlignCountsEveryRemovedByte := by
  rintro s _ ⟨⟩
  obtain ⟨dropped, hraw, hcnt⟩ := alignLoop_drops s.params s.swfc.raw s.swfc.cnt
  refine ⟨alignProc_raw_length_le s, ?_, fun w rest hw hinvalid => ?_, fun f rest hf hfail => ?_⟩
  · have hlen := congrArg List.length hraw
    rw [List.length_append] at hlen
    have hdropped : s.swfc.raw.length - (alignProc s).2.swfc.raw.length = dropped.length := by
      rw [alignProc_raw]
      omega
    change _ = _ + BitVec.ofNat 32 (s.swfc.raw.length - (alignProc s).2.swfc.raw.length)
    rw [hdropped]
    exact hcnt
  · have hw' : validByte s.params w = false := Bool.eq_false_iff.mpr (mt wireByte_iff_validByte.mpr hinvalid)
    have hlt := alignLoop_length_lt_of_invalid hw' rest s.swfc.cnt
    rw [← hw] at hlt
    exact hlt
  · have hlt := alignLoop_length_lt_of_fail hfail rest s.swfc.cnt
    rw [← hf] at hlt
    exact hlt

/-- From `s` the result `x` of RDFR's body accounts for the bytes `all`: dropped and counted, returned, or in RAW. -/
def Conserves (all : List Byte) (s : State) (x : Except Status Frame × State) : Prop :=
  ∃ dropped frame, all = dropped ++ frame ++ x.2.swfc.raw ∧
    x.2.swfc.cnt.filter + x.2.swfc.cnt.resync =
      s.swfc.cnt.filter + s.swfc.cnt.resync + BitVec.ofNat 32 dropped.length ∧
    ((∃ f, frame = frameBytes f ∧ x.1 = .ok f) ∨ (frame = [] ∧ ∃ st, x.1 = .error st))

/-- The end of RDFR's body, an ALIGN and an extraction, accounts for RAW. -/
theorem conserves_extractFrame_alignProc (s : State) :
    Conserves s.swfc.raw s (extractFrame (alignProc s).1 (alignProc s).2) := by
  obtain ⟨dropped, hraw, hcnt⟩ := alignLoop_drops s.params s.swfc.raw s.swfc.cnt
  rcases extractFrame_cases (alignProc s).1 (alignProc s).2 with ⟨f, rest, -, hf, h⟩ | ⟨-, h⟩ <;> rw [h]
  · rw [alignProc_raw] at hf
    exact ⟨dropped, frameBytes f, by rw [List.append_assoc]; exact hf ▸ hraw, hcnt, .inl ⟨f, rfl, rfl⟩⟩
  · exact ⟨dropped, [], by rw [List.append_nil]; exact hraw, hcnt, .inr ⟨rfl, _, rfl⟩⟩

/-- An account of what an ALIGN has left, with more bytes after it, is one of what it found. -/
theorem Conserves.of_alignProc {s u : State} {more : List Byte} {x : Except Status Frame × State}
    (h : Conserves ((alignProc s).2.swfc.raw ++ more) u x)
    (hcnt : u.swfc.cnt.filter + u.swfc.cnt.resync =
      (alignProc s).2.swfc.cnt.filter + (alignProc s).2.swfc.cnt.resync) :
    Conserves (s.swfc.raw ++ more) s x := by
  obtain ⟨dropped, frame, hall, hx, hend⟩ := h
  obtain ⟨first, hraw, hfirst⟩ := alignLoop_drops s.params s.swfc.raw s.swfc.cnt
  refine ⟨first ++ dropped, frame, ?_, ?_, hend⟩
  · calc s.swfc.raw ++ more = first ++ ((alignProc s).2.swfc.raw ++ more) := by
          rw [← List.append_assoc]; exact congrArg (· ++ more) hraw
      _ = first ++ dropped ++ frame ++ x.2.swfc.raw := by rw [hall]; simp
  · rw [hx, hcnt, alignProc_cnt, hfirst, List.length_append, BitVec.ofNat_add, BitVec.add_assoc]

theorem receive_filter_resync (n : Nat) (b : Frame) (s : State) :
    (receive n b s).swfc.cnt.filter = s.swfc.cnt.filter ∧ (receive n b s).swfc.cnt.resync = s.swfc.cnt.resync := by
  rw [receive_eq n b s rfl]
  exact ⟨rfl, rfl⟩

/-- Where RDFR makes its read, all that RAW held and the read delivered is accounted for (R110). -/
theorem conserves_takeRead {s u : State} (r : ReadAnswer) (hcap : 7 ≤ s.params.rawCap)
    (hshort : (alignProc s).2.swfc.raw.length < 4) (hm : u.swfc = (alignProc s).2.swfc) (hp : u.params = s.params) :
    Conserves (s.swfc.raw ++ readBytes r) s (takeRead r u) := by
  cases r with
  | fail =>
    refine Conserves.of_alignProc (u := u) ⟨[], [], ?_, by simp [takeRead, bump], .inr ⟨rfl, _, rfl⟩⟩ (by rw [hm])
    rw [← hm]
    simp [takeRead, readBytes]
  | data n b =>
    have hfit : u.swfc.raw.length + 4 ≤ u.params.rawCap := by
      rw [hm, hp]
      omega
    obtain ⟨hfilter, hresync⟩ := receive_filter_resync n b u
    refine Conserves.of_alignProc (u := receive n b u) ?_ (by rw [hfilter, hresync, hm])
    have hend := conserves_extractFrame_alignProc (receive n b u)
    rw [receive_raw_of_le n b u hfit, hm] at hend
    exact hend

@[simp] theorem extractFrame_env (a : Bool) (s : State) : (extractFrame a s).2.env = s.env := by
  rcases extractFrame_cases a s with ⟨f, rest, -, -, h⟩ | ⟨-, h⟩ <;> rw [h]
  rfl

@[simp] theorem takeRead_env (r : ReadAnswer) (s : State) : (takeRead r s).2.env = s.env := by
  obtain ⟨raw, cnt, h⟩ := takeRead_frame r s
  rw [h]

/-- R110 for the body that RDFR and RXB share. -/
theorem readFrame_conserves {s : State} {r : ReadAnswer} {reads : List ReadAnswer} (hcap : 7 ≤ s.params.rawCap)
    (hr : s.env.reads = r :: reads) :
    ((readFrame s).2.env.reads = r :: reads ∧ Conserves s.swfc.raw s (readFrame s)) ∨
      ((readFrame s).2.env.reads = reads ∧ Conserves (s.swfc.raw ++ readBytes r) s (readFrame s)) := by
  rcases readFrame_cases s with ⟨-, h⟩ | ⟨hshort, -⟩
  · left
    rw [h]
    exact ⟨by rw [extractFrame_env, alignProc_env, hr], conserves_extractFrame_alignProc s⟩
  · right
    rw [readFrame_of_short hshort hr]
    exact ⟨by rw [takeRead_env], conserves_takeRead r hcap hshort rfl rfl⟩

/-- What RDFR does is to respond what its body gives. -/
theorem exec_rdfr_outcome {s t : State} (h : exec .rdfr s = .next t) :
    t.swfc = (readFrame s).2.swfc ∧ t.env = (readFrame s).2.env ∧
    ((∃ f, (readFrame s).1 = .ok f ∧ t.responses = s.responses ++ [⟨.ok, frameBytes f⟩]) ∨
      ∃ st, (readFrame s).1 = .error st ∧ t.responses = s.responses ++ [⟨st, []⟩]) := by
  match hx : readFrame s with
  | (.ok f, u) =>
    cases (exec_rdfr_of_ok hx).symm.trans h
    exact ⟨rfl, rfl, .inl ⟨f, rfl, by rw [respond_responses, responses_of_readFrame hx]⟩⟩
  | (.error st, u) =>
    cases (exec_rdfr_of_error hx).symm.trans h
    exact ⟨rfl, rfl, .inr ⟨st, rfl, by rw [respond_responses, responses_of_readFrame hx]⟩⟩

/-- An account of RDFR's body is one of RDFR, with its response. -/
theorem Conserves.of_exec_rdfr {all : List Byte} {s t : State} (hx : Conserves all s (readFrame s))
    (h : exec .rdfr s = .next t) : ∃ dropped frame, all = dropped ++ frame ++ t.swfc.raw ∧
      t.swfc.cnt.filter + t.swfc.cnt.resync =
        s.swfc.cnt.filter + s.swfc.cnt.resync + BitVec.ofNat 32 dropped.length ∧
      ((frame.length = 4 ∧ t.responses = s.responses ++ [⟨.ok, frame⟩]) ∨ (frame = [] ∧
        (t.responses = s.responses ++ [⟨.noframe, []⟩] ∨ t.responses = s.responses ++ [⟨.rxerr, []⟩]))) := by
  obtain ⟨hm, -, hresp⟩ := exec_rdfr_outcome h
  obtain ⟨dropped, frame, hall, hcnt, hend⟩ := hx
  refine ⟨dropped, frame, hm ▸ hall, hm ▸ hcnt, ?_⟩
  rcases hend with ⟨f, rfl, hok⟩ | ⟨hnil, st, herr⟩ <;> rcases hresp with ⟨g, hok', hr⟩ | ⟨st', herr', hr⟩
  · cases hok.symm.trans hok'
    exact .inl ⟨frameBytes_length f, hr⟩
  · cases hok.symm.trans herr'
  · cases herr.symm.trans hok'
  · refine .inr ⟨hnil, ?_⟩
    rcases readFrame_status herr' with rfl | rfl
    · exact .inl hr
    · exact .inr hr

/-- Settles O26: the body accounts for RAW alone where it makes no read, else for RAW and what the read delivered. -/
theorem rdfrConservesTheBytes : Obligations.RdfrConservesTheBytes := by
  intro s t r reads hcap hr ht
  obtain ⟨-, henv, -⟩ := exec_rdfr_outcome ht
  rcases readFrame_conserves hcap hr with ⟨hreads, hx⟩ | ⟨hreads, hx⟩ <;>
    obtain ⟨dropped, frame, hall, hcnt, hend⟩ := hx.of_exec_rdfr ht <;>
    rw [← henv] at hreads
  · exact ⟨dropped, frame, .inl ⟨hreads, hall⟩, hcnt, hend⟩
  · exact ⟨dropped, frame, .inr ⟨hreads, hall⟩, hcnt, hend⟩

end Sys2Proof.Machine
end

section
/-! What a read's answer can show (R44): the bytes it delivers and nothing beyond them; an unlisted answer is some answer
(log 2). -/

namespace Sys2Proof.Machine

/-- RDFR and RXB depend on their state through RDFR's body and the parameters. -/
theorem exec_receive_congr {s u : State} (h : readFrame s = readFrame u) (hp : s.params = u.params) :
    exec .rdfr s = exec .rdfr u ∧ exec .rxb s = exec .rxb u := by
  simp only [exec, execRdfr, execRxb, h, hp, and_self]

/-- The state with one read answer listed, its draw taken. -/
def listingRead (r : ReadAnswer) (s : State) : State :=
  { s with env := { s.env with reads := [r], draws := s.env.draws + 1 } }

theorem transportRead_unlisted {s : State} (h : s.env.reads = []) :
    transportRead s = transportRead (listingRead (Config.freeRead s.env.draws) s) := by
  simp [transportRead, h, listingRead]

/-- Settles O23: the free value is the answer. -/
theorem unlistedReadIsSomeAnswer : Obligations.UnlistedReadIsSomeAnswer := by
  rintro s _ ⟨⟩ hshort hreads
  refine ⟨Config.freeRead s.env.draws,
    exec_receive_congr (u := listingRead (Config.freeRead s.env.draws) s) ?_ rfl⟩
  have hread := transportRead_unlisted (s := (alignProc s).2) hreads
  rcases readFrame_cases s with ⟨hl, -⟩ | ⟨-, h⟩
  · exact absurd hshort (Nat.not_lt.mpr hl)
  · rcases readFrame_cases (listingRead (Config.freeRead s.env.draws) s) with ⟨hl, -⟩ | ⟨-, h'⟩
    · exact absurd hshort (Nat.not_lt.mpr hl)
    · rw [h, h', hread]
      rfl

/-- Buffers that agree below the report deliver the same bytes (R44). -/
theorem delivered_congr {n : Nat} {b b' : Frame} (h : ∀ i < n, (frameBytes b)[i]? = (frameBytes b')[i]?) :
    delivered n b = delivered n b' := by
  refine List.ext_getElem? fun i => ?_
  simp only [delivered, List.getElem?_take]
  split
  · exact h i (by omega)
  · rfl

/-- A data answer matters only through its report and the bytes it delivers. -/
theorem takeRead_congr {n : Nat} {b b' : Frame} (h : delivered n b = delivered n b') (s : State) :
    takeRead (.data n b) s = takeRead (.data n b') s := by
  simp only [takeRead, h]

/-- Settles O27: RDFR's body sees of an answer the report and the delivered bytes. -/
theorem undeliveredBytesDoNotMatter : Obligations.UndeliveredBytesDoNotMatter := by
  rintro s _ n b b' reads ⟨⟩ hshort hagree
  have hbody : ∀ a : ReadAnswer, readFrame { s with env := { s.env with reads := a :: reads } } =
      takeRead a { (alignProc s).2 with env := { s.env with reads := reads } } := fun a =>
    readFrame_of_short (s := { s with env := { s.env with reads := a :: reads } }) hshort rfl
  refine exec_receive_congr ?_ rfl
  rw [hbody, hbody, takeRead_congr (delivered_congr hagree)]

end Sys2Proof.Machine
end

section
/-! Streams of wire bytes: what RDFR and RXB do with a RAW of valid bytes (R103, R174) and with a stream that begins with
invalid ones (R108). -/

namespace Sys2Proof.Machine

theorem wireByte_of_mem_enc {p : Params} {b w : Byte} (h : w ∈ frameBytes (enc p b)) : WireByte p w := ⟨b, h⟩

/-- Any 4 wire bytes in front pass the trial (R83, R103). -/
theorem exists_frame_of_wireBytes {p : Params} {raw : List Byte} (hw : ∀ w ∈ raw, WireByte p w) (hl : 4 ≤ raw.length) :
    ∃ f rest, raw = frameBytes f ++ rest ∧ rtOk p f = true := by
  match raw, hl with
  | w0 :: w1 :: w2 :: w3 :: rest, _ =>
    refine ⟨⟨w0, w1, w2, w3⟩, rest, rfl, rtOk_iff.mpr (enc_dec_eq_iff_wireByte.mpr ?_)⟩
    exact ⟨hw w0 (by simp), hw w1 (by simp), hw w2 (by simp), hw w3 (by simp)⟩

theorem alignLoop_of_rtOk {p : Params} {f : Frame} (h : rtOk p f = true) (rest : List Byte) (c : Counters) :
    alignLoop p (frameBytes f ++ rest) c = (true, frameBytes f ++ rest, c) :=
  alignLoop_pass p (wireByte_iff_validByte.mp (enc_dec_eq_iff_wireByte.mp (rtOk_iff.mp h)).1) h rest c

/-- On wire bytes alone the loop stops at once, aligned if there are 4 of them. -/
theorem alignLoop_of_wireBytes {p : Params} {raw : List Byte} (hw : ∀ w ∈ raw, WireByte p w) (c : Counters) :
    alignLoop p raw c = (decide (4 ≤ raw.length), raw, c) := by
  rcases Nat.lt_or_ge raw.length 4 with hl | hl
  · rw [decide_eq_false (by omega)]
    exact alignLoop_of_length_le (by omega)
      (fun w hmem => wireByte_iff_validByte.mp (hw w (List.mem_of_mem_head? hmem))) c
  · obtain ⟨f, rest, rfl, hf⟩ := exists_frame_of_wireBytes hw hl
    rw [decide_eq_true hl, alignLoop_of_rtOk hf]

theorem alignProc_of_wireBytes {s : State} (hw : ∀ w ∈ s.swfc.raw, WireByte s.params w) :
    alignProc s = (decide (4 ≤ s.swfc.raw.length), s) := by
  simp [alignProc, alignLoop_of_wireBytes hw]

/-- Settles O28: every byte cut out of the two frames is a wire byte, so the first 4 pass the trial. -/
theorem misalignedFramesGoUndetected : Obligations.MisalignedFramesGoUndetected := by
  intro s b1 b2 k hk hraw
  have hw : ∀ w ∈ s.swfc.raw, WireByte s.params w := by
    intro w hmem
    rw [hraw] at hmem
    rcases List.mem_append.mp (List.mem_of_mem_drop hmem) with h | h
    · exact wireByte_of_mem_enc h
    · exact wireByte_of_mem_enc h
  have hl : 4 ≤ s.swfc.raw.length := by
    rw [hraw, List.length_drop, List.length_append, frameBytes_length, frameBytes_length]
    omega
  obtain ⟨f, rest, hf, -⟩ := exists_frame_of_wireBytes hw hl
  have halign := alignProc_of_wireBytes hw
  have hread := readFrame_of_frame (s := s) (f := f) (rest := rest) (by rw [halign, hf])
  rw [halign] at hread
  rw [exec_rdfr_of_ok hread, hf]
  rfl

/-- The loop drops exactly the invalid bytes that stand before wire bytes (R108). -/
theorem alignLoop_garbage {p : Params} {g v : List Byte} (hg : ∀ w ∈ g, ¬ WireByte p w) (hv : ∀ w ∈ v, WireByte p w)
    (c : Counters) : alignLoop p (g ++ v) c =
      (decide (4 ≤ v.length), v, { c with filter := c.filter + BitVec.ofNat 32 g.length }) := by
  induction g generalizing c with
  | nil => simp [alignLoop_of_wireBytes hv]
  | cons w g ih =>
    obtain ⟨hw, hg⟩ := List.forall_mem_cons.mp hg
    have hinvalid : validByte p w = false := Bool.eq_false_iff.mpr (mt wireByte_iff_validByte.mpr hw)
    rw [List.cons_append, alignLoop_invalid p hinvalid, ih hg, List.length_cons, BitVec.ofNat_add,
      BitVec.add_comm (BitVec.ofNat 32 g.length), ← BitVec.add_assoc]
    rfl

/-- The bytes of the encodings of a sequence of payload bytes. -/
def encodings (p : Params) (ps : List Byte) : List Byte := ps.flatMap fun b => frameBytes (enc p b)

theorem wireByte_of_mem_encodings {p : Params} {ps : List Byte} {w : Byte} (h : w ∈ encodings p ps) : WireByte p w := by
  obtain ⟨b, -, hw⟩ := List.mem_flatMap.mp h
  exact wireByte_of_mem_enc hw

theorem length_encodings (p : Params) (ps : List Byte) : (encodings p ps).length = 4 * ps.length := by
  simp [encodings, List.length_flatMap, Nat.mul_comm]

/-- Between two RXB: RAW and the reads to come hold the invalid bytes `g`, then the encodings of `ps`; RAW holds wire bytes
alone, and no whole frame. -/
structure Streams (s : State) (g ps : List Byte) : Prop where
  short : s.swfc.raw.length ≤ 3
  wire : ∀ w ∈ s.swfc.raw, WireByte s.params w
  garbage : ∀ w ∈ g, ¬ WireByte s.params w
  bytes : s.swfc.raw ++ s.env.reads.flatMap readBytes = g ++ encodings s.params ps

/-- RDFR's body on such a state: it reads, drops the invalid bytes of what it has, and extracts if 4 bytes are left. -/
theorem readFrame_garbage {s : State} {n : Nat} {b : Frame} {reads : List ReadAnswer} {g v : List Byte}
    (hcap : 7 ≤ s.params.rawCap) (hshort : s.swfc.raw.length ≤ 3) (hwire : ∀ w ∈ s.swfc.raw, WireByte s.params w)
    (hr : s.env.reads = .data n b :: reads) (hsplit : s.swfc.raw ++ delivered n b = g ++ v)
    (hg : ∀ w ∈ g, ¬ WireByte s.params w) (hv : ∀ w ∈ v, WireByte s.params w) : ∃ cnt : Counters,
      cnt.filter = s.swfc.cnt.filter + BitVec.ofNat 32 g.length ∧ cnt.resync = s.swfc.cnt.resync ∧
      readFrame s = extractFrame (decide (4 ≤ v.length)) { s with
        swfc := { s.swfc with raw := v, cnt := cnt }, env := { s.env with reads := reads } } := by
  have halign := alignProc_of_wireBytes hwire
  have hbody := readFrame_of_short (s := s) (by rw [halign]; exact Nat.lt_succ_of_le hshort) hr
  rw [halign, takeRead_data] at hbody
  have hcnt := receive_filter_resync n b { s with env := { s.env with reads := reads } }
  have hraw := receive_raw_of_le n b { s with env := { s.env with reads := reads } } (by
    change s.swfc.raw.length + 4 ≤ s.params.rawCap
    omega)
  have hstate := receive_eq n b { s with env := { s.env with reads := reads } } rfl
  generalize receive n b { s with env := { s.env with reads := reads } } = u at hbody hcnt hraw hstate
  obtain ⟨hfilter, hresync⟩ := hcnt
  have hloop : alignLoop u.params u.swfc.raw u.swfc.cnt = (decide (4 ≤ v.length), v,
      { u.swfc.cnt with filter := u.swfc.cnt.filter + BitVec.ofNat 32 g.length }) := by
    rw [hraw]
    change alignLoop u.params (s.swfc.raw ++ delivered n b) _ = _
    rw [hsplit]
    refine alignLoop_garbage ?_ ?_ _ <;> rw [hstate]
    · exact hg
    · exact hv
  refine ⟨{ u.swfc.cnt with filter := u.swfc.cnt.filter + BitVec.ofNat 32 g.length }, by rw [hfilter], hresync, ?_⟩
  rw [hbody]
  simp only [alignProc, hloop]
  rw [hstate]

/-- Of the bytes that have arrived a first part is invalid and the rest are wire bytes; what is still to come begins with
invalid bytes only if no wire byte has arrived. -/
theorem split_arrived {p : Params} {arrived rest g ps : List Byte} (h : arrived ++ rest = g ++ encodings p ps) :
    ∃ g1 g2 v, g = g1 ++ g2 ∧ arrived = g1 ++ v ∧ v ++ rest = g2 ++ encodings p ps ∧ (∀ w ∈ v, WireByte p w) ∧
      (v = [] ∨ g2 = []) := by
  rcases List.append_eq_append_iff.mp h with ⟨g2, hg, hrest⟩ | ⟨v, harrived, henc⟩
  · exact ⟨arrived, g2, [], hg, (List.append_nil _).symm, hrest, by simp, .inl rfl⟩
  · refine ⟨g, [], v, (List.append_nil _).symm, harrived, henc.symm, fun w hw => ?_, .inr rfl⟩
    exact wireByte_of_mem_encodings (henc ▸ List.mem_append_left _ hw)

/-- A front of 4 bytes or more of some encodings begins with the first of them. -/
theorem encodings_front {p : Params} {v rest ps : List Byte} (h : v ++ rest = encodings p ps) (hl : 4 ≤ v.length) :
    ∃ b ps' v', ps = b :: ps' ∧ v = frameBytes (enc p b) ++ v' ∧ v' ++ rest = encodings p ps' := by
  cases ps with
  | nil =>
    have hlen := congrArg List.length h
    rw [List.length_append, length_encodings, List.length_nil] at hlen
    omega
  | cons b ps' =>
    have henc : encodings p (b :: ps') = frameBytes (enc p b) ++ encodings p ps' := List.flatMap_cons
    rw [henc] at h
    have hfront : frameBytes (enc p b) <+: v ++ rest := h ▸ List.prefix_append _ _
    obtain ⟨v', hv'⟩ := List.prefix_of_prefix_length_le hfront (List.prefix_append v rest) hl
    refine ⟨b, ps', v', rfl, hv'.symm, ?_⟩
    rw [← hv', List.append_assoc] at h
    exact List.append_cancel_left h

/-- How an RXB can go on with the payload bytes still to be delivered: with its response, and those that are then left. -/
inductive Delivers : List Byte → List Byte → Response → Prop where
  | byte (b : Byte) (ps : List Byte) : Delivers (b :: ps) ps ⟨.ok, [b]⟩
  | nothing (ps : List Byte) : Delivers ps ps ⟨.noframe, []⟩

/-- One RXB drops a first part of the invalid bytes, counts it, and delivers at most the next byte (R107, R108). -/
theorem exec_rxb_streams {s : State} {g ps : List Byte} {n : Nat} {b : Frame} {reads : List ReadAnswer}
    (h : Streams s g ps) (hp : s.params.Valid) (hcap : 7 ≤ s.params.rawCap) (hr : s.env.reads = .data n b :: reads) :
    ∃ (t : State) (r : Response) (g1 g2 ps' : List Byte), exec .rxb s = .next t ∧ t.responses = s.responses ++ [r] ∧
      t.env.reads = reads ∧ g = g1 ++ g2 ∧ Streams t g2 ps' ∧ Delivers ps ps' r ∧
      t.swfc.cnt.filter = s.swfc.cnt.filter + BitVec.ofNat 32 g1.length ∧ t.swfc.cnt.resync = s.swfc.cnt.resync := by
  obtain ⟨hshort, hwire, hg, hbytes⟩ := h
  rw [hr, List.flatMap_cons, ← List.append_assoc] at hbytes
  obtain ⟨g1, g2, v, rfl, hsplit, hrest, hv, hclean⟩ := split_arrived hbytes
  obtain ⟨hg1, hg2⟩ := List.forall_mem_append.mp hg
  obtain ⟨cnt, hfilter, hresync, hbody⟩ := readFrame_garbage hcap hshort hwire hr hsplit hg1 hv
  rcases Nat.lt_or_ge v.length 4 with hl | hl
  · rw [decide_eq_false (by omega)] at hbody
    exact ⟨_, ⟨.noframe, []⟩, g1, g2, ps, exec_rxb_of_error hbody, rfl, rfl, rfl,
      ⟨Nat.le_of_lt_succ hl, hv, hg2, hrest⟩, .nothing ps, hfilter, hresync⟩
  · obtain rfl : g2 = [] := hclean.resolve_left fun hnil => by simp [hnil] at hl
    obtain ⟨c, ps', v', rfl, rfl, hrest'⟩ := encodings_front hrest hl
    obtain ⟨-, hv'⟩ := List.forall_mem_append.mp hv
    have hshort' : v'.length ≤ 3 := by
      have hlen := congrArg List.length hsplit
      have := delivered_length_le n b
      simp only [readBytes, List.length_append, frameBytes_length] at hlen
      omega
    rw [decide_eq_true hl, extractFrame_of_frame rfl] at hbody
    have hexec := exec_rxb_of_ok hbody
    rw [dec_enc hp.posNe] at hexec
    exact ⟨_, ⟨.ok, [c]⟩, g1, [], ps', hexec, rfl, rfl, rfl, ⟨hshort', hv', by simp, hrest'⟩, .byte c ps',
      hfilter, hresync⟩

/-- With no read to come the stream is at its end: a RAW of fewer than 4 wire bytes holds no invalid byte and no encoding. -/
theorem Streams.at_end {s : State} {g ps : List Byte} (h : Streams s g ps) (hr : s.env.reads = []) :
    g = [] ∧ ps = [] ∧ s.swfc.raw = [] := by
  obtain ⟨hshort, hwire, hg, hbytes⟩ := h
  rw [hr, List.flatMap_nil, List.append_nil] at hbytes
  have hgnil : g = [] := List.eq_nil_iff_forall_not_mem.mpr fun w hw =>
    hg w hw (hwire w (by rw [hbytes]; exact List.mem_append_left _ hw))
  have hlen := congrArg List.length hbytes
  rw [hgnil, List.nil_append, length_encodings] at hlen
  have hpsnil : ps = [] := List.eq_nil_of_length_eq_zero (by omega)
  refine ⟨hgnil, hpsnil, ?_⟩
  rw [hbytes, hgnil, hpsnil]
  rfl

/-- R108 from any point of the stream, by induction on the reads to come. -/
theorem runSteps_rxb_streams {tail : List Byte} (reads : List ReadAnswer) : ∀ {s : State} {g ps : List Byte},
    s.env.reads = reads → (∀ r ∈ reads, r ≠ .fail) → Streams s g ps → s.params.Valid → 7 ≤ s.params.rawCap →
    s.port = List.replicate reads.length 0x12 ++ tail →
    ∃ (t : State) (rs : List Response), runSteps reads.length s = .next t ∧
      t.port = tail ∧ t.swfc.raw = [] ∧ t.responses = s.responses ++ rs ∧
      rs.filter (fun r => decide (r.status = .ok)) = ps.map (fun b => ⟨.ok, [b]⟩) ∧
      (∀ r ∈ rs, r.status = .ok ∨ r = ⟨.noframe, []⟩) ∧
      t.swfc.cnt.filter = s.swfc.cnt.filter + BitVec.ofNat 32 g.length ∧
      t.swfc.cnt.resync = s.swfc.cnt.resync := by
  induction reads with
  | nil =>
    intro s g ps hr _ h _ _ hport
    obtain ⟨rfl, rfl, hraw⟩ := h.at_end hr
    exact ⟨s, [], rfl, hport, hraw, by simp, rfl, by simp, by simp, rfl⟩
  | cons a reads ih =>
    intro s g ps hr hok h hp hcap hport
    obtain ⟨ha, hok'⟩ := List.forall_mem_cons.mp hok
    match a, ha with
    | .data n b, _ =>
      obtain ⟨u, r, g1, g2, ps', hexec, hresp, hreads, rfl, hu, hdel, hfilter, hresync⟩ :=
        exec_rxb_streams (s := { s with port := List.replicate reads.length 0x12 ++ tail })
          ⟨h.short, h.wire, h.garbage, h.bytes⟩ hp hcap hr
      have hstep : step s = .next u := (step_of_port_eq (i := .rxb) hport).trans hexec
      have hparams : u.params = s.params := step_params hstep
      have huport : u.port = List.replicate reads.length 0x12 ++ tail := by
        obtain ⟨m, rd, dr, r', hframe⟩ := (executes_of_exec hexec).frame_of_ne_txb (by simp)
        rw [hframe]
      obtain ⟨t, rs, hrun, htport, htraw, htresp, hbytes, hrs, htfilter, htresync⟩ :=
        ih hreads hok' hu (hparams ▸ hp) (hparams ▸ hcap) huport
      refine ⟨t, r :: rs, (runSteps_succ hstep _).trans hrun, htport, htraw, ?_, ?_, ?_, ?_, htresync.trans hresync⟩
      · rw [htresp, hresp, List.append_assoc, List.singleton_append]
      · cases hdel with
        | byte => simp [hbytes]
        | nothing => simp [hbytes]
      · refine List.forall_mem_cons.mpr ⟨?_, hrs⟩
        cases hdel with
        | byte => exact .inl rfl
        | nothing => exact .inr rfl
      · rw [htfilter, hfilter, List.length_append, BitVec.ofNat_add, BitVec.add_assoc]

/-- Settles O29: at first RAW is empty and the whole stream is still to come. -/
theorem garbagePrefixIsSkippedExactly : Obligations.GarbagePrefixIsSkippedExactly := by
  intro s g ps tail hp hcap hraw hg hok hbytes hport
  refine runSteps_rxb_streams s.env.reads rfl hok ⟨?_, ?_, hg, ?_⟩ hp hcap hport
  · simp [hraw]
  · simp [hraw]
  · rw [hraw, List.nil_append, hbytes]
    rfl

end Sys2Proof.Machine
end

section
/-! The two pseudo-instructions of a listing (R71, R72): how their lines are read. -/

namespace Sys2Proof.Machine

/-- A piece of a string literal as R71 writes it, with the byte it stands for. -/
def StringPiece (p : List Char × Byte) : Prop :=
  (∃ c : Char, c.toNat < 128 ∧ c.toNat ≠ 34 ∧ c.toNat ≠ 92 ∧ p = ([c], BitVec.ofNat 8 c.toNat)) ∨
    p = ([escapeChar, 'r'], 0x0D) ∨ p = ([escapeChar, 'n'], 0x0A)

/-- Inside a string one piece adds its byte to what is collected. -/
theorem lex_str_piece {p : List Char × Byte} (h : StringPiece p) (acc : List Byte) (cs : List Char) :
    lex (.str acc) (p.1 ++ cs) = lex (.str (p.2 :: acc)) cs := by
  rcases h with ⟨c, hascii, hquote, hescape, rfl⟩ | rfl | rfl
  · have hquote' : c ≠ stringChar := fun hc => hquote (hc ▸ rfl)
    have hescape' : c ≠ escapeChar := fun hc => hescape (hc ▸ rfl)
    simp [lex, hquote', hescape', asciiByte, hascii]
  · rfl
  · rfl

/-- A string literal is read to its closing quote, as the bytes of its pieces in order. -/
theorem lex_str {ps : List (List Char × Byte)} (h : ∀ p ∈ ps, StringPiece p) (acc : List Byte) :
    lex (.str acc) (ps.flatMap Prod.fst ++ [stringChar]) = some [.str (acc.reverse ++ ps.map Prod.snd)] := by
  induction ps generalizing acc with
  | nil => simp [lex]
  | cons p ps ih =>
    obtain ⟨hp, hps⟩ := List.forall_mem_cons.mp h
    rw [List.flatMap_cons, List.append_assoc, lex_str_piece hp, ih hps]
    simp

theorem assembleLine_txstr {ps : List (List Char × Byte)} (h : ∀ p ∈ ps, StringPiece p) :
    assembleLine ("TXSTR ".toList ++ [stringChar] ++ ps.flatMap Prod.fst ++ [stringChar]) =
      some (txstr (ps.map Prod.snd)) := by
  have hlex : lex .gap ("TXSTR ".toList ++ [stringChar] ++ ps.flatMap Prod.fst ++ [stringChar]) =
      (lex (.str []) (ps.flatMap Prod.fst ++ [stringChar])).map (Token.word "TXSTR".toList :: ·) := by
    rw [List.append_assoc]
    rfl
  rw [assembleLine, hlex, lex_str h]
  rfl

/-- The character of a decimal digit. -/
def digitChar (d : Fin 10) : Char := Char.ofNat (48 + d.val)

theorem toNat_digitChar : ∀ d : Fin 10, (digitChar d).toNat = 48 + d.val := by decide

theorem digitChar_begins_word : ∀ d : Fin 10, digitChar d ≠ ';' ∧ isBlank (digitChar d) = false ∧
    digitChar d ≠ quoteChar ∧ digitChar d ≠ stringChar := by decide

/-- A word of digits is read to the end of the line. -/
theorem lex_word_digits (ds : List (Fin 10)) (acc : List Char) :
    lex (.word acc) (ds.map digitChar) = some [.word (acc.reverse ++ ds.map digitChar)] := by
  induction ds generalizing acc with
  | nil => simp [lex]
  | cons d ds ih =>
    obtain ⟨hcomment, hblank, -, -⟩ := digitChar_begins_word d
    simp [lex, hcomment, hblank, ih]

theorem lex_gap_digits {ds : List (Fin 10)} (h : ds ≠ []) :
    lex .gap (ds.map digitChar) = some [.word (ds.map digitChar)] := by
  obtain ⟨d, ds, rfl⟩ := List.exists_cons_of_ne_nil h
  obtain ⟨hcomment, hblank, hquote, hstring⟩ := digitChar_begins_word d
  simp [lex, hcomment, hblank, hquote, hstring, lex_word_digits]

theorem decimal_digits {ds : List (Fin 10)} (h : ds ≠ []) :
    decimal (ds.map digitChar) = some (ds.foldl (fun n d => 10 * n + d.val) 0) := by
  have hdigits : ((ds.map digitChar).all fun c => decide (48 ≤ c.toNat) && decide (c.toNat ≤ 57)) = true := by
    simp only [List.all_map, List.all_eq_true, Function.comp, toNat_digitChar, Bool.and_eq_true, decide_eq_true_eq]
    omega
  rw [decimal, if_pos ⟨by simpa using h, hdigits⟩, List.foldl_map]
  simp only [toNat_digitChar, Nat.add_sub_cancel_left]

theorem assembleLine_rxn {ds : List (Fin 10)} (h : ds ≠ []) :
    assembleLine ("RXN ".toList ++ ds.map digitChar) = some (rxn (ds.foldl (fun n d => 10 * n + d.val) 0)) := by
  have hlex : lex .gap ("RXN ".toList ++ ds.map digitChar) =
      (lex .gap (ds.map digitChar)).map (Token.word "RXN".toList :: ·) := rfl
  have hline : lineCommands [.word "RXN".toList, .word (ds.map digitChar)] =
      (decimal (ds.map digitChar)).map rxn := rfl
  rw [assembleLine, hlex, lex_gap_digits h, Option.map_some, Option.bind_some, hline, decimal_digits h, Option.map_some]

/-- Settles O51: the string's bytes and the decimal number are the operands of the two lines. -/
theorem pseudoInstructionsExpand : Obligations.PseudoInstructionsExpand := by
  refine ⟨fun ps h => ?_, fun ds h => assembleLine_rxn h⟩
  rw [assembleLine_txstr h, txstr, List.map_map]
  rfl

end Sys2Proof.Machine
end

section
/-! Runs (R179): every step of a run takes its next command, which responds, or holds at a TXB; so a run shows one
observation, and it ends unless a TXB holds for ever. -/

namespace Sys2Proof.Machine

/-- Every step answers a next state (R150). -/
theorem exists_step (s : State) : ∃ t, step s = .next t := by
  rcases step_cases s with ⟨i, rest, -, h⟩ | ⟨e, -, h⟩ <;> rw [h]
  · obtain ⟨t, ht, -⟩ := exec_executes i { s with port := rest }
    exact ⟨t, ht⟩
  · exact ⟨_, rfl⟩

theorem runSteps_succ_last {k : Nat} {s t u : State} (h : runSteps k s = .next t) (ht : step t = .next u) :
    runSteps (k + 1) s = .next u :=
  (runSteps_add h 1).trans (runSteps_one ht)

/-- A step at an issued command takes it, with one response, or is a sample of a TXB that holds (R9, R68, R130). -/
theorem step_issued {s : State} {c : Issued} {port : List Byte} (hc : c.wellFormed = true)
    (hport : s.port = c.bytes ++ port) : ∃ t, step s = .next t ∧
      ((∃ r, t.responses = s.responses ++ [r] ∧ t.port = port) ∨
        (∃ b, c = .command (.txb b) ∧ t.responses = s.responses ∧ t.port = s.port)) := by
  cases c with
  | command i =>
    obtain ⟨t, ht, he⟩ := exec_executes i { s with port := port }
    refine ⟨t, (step_of_port_eq hport).trans ht, ?_⟩
    rcases he.responds_or_holds with ⟨r, hr, -, hp⟩ | ⟨b, rfl, hr, -, -, hp⟩
    · exact .inl ⟨r, hr, hp⟩
    · exact .inr ⟨b, rfl, hr, hp.trans hport.symm⟩
  | illegal c =>
    have hillegal : c ∉ opcodeBytes := opOf_eq_none_iff.mp (beq_iff_eq.mp hc)
    exact ⟨_, step_of_illegalOpcode hport hillegal, .inl ⟨_, rfl, rfl⟩⟩

/-- In `t` the commands `cs` of the run are still to be taken, and each one before them has responded. -/
structure Remaining (r : Run) (cs : List Issued) (t : State) : Prop where
  suffix : cs <:+ r.commands
  port : t.port = cs.flatMap Issued.bytes
  responded : t.responses.length + cs.length = r.commands.length

section run
variable {r : Run} {cs : List Issued} {t : State}

theorem remaining_start (r : Run) : Remaining r r.commands r.start := ⟨List.suffix_rfl, rfl, by simp⟩

theorem Remaining.eq_nil (h : Remaining r cs t) (hresp : t.responses.length = r.commands.length) : cs = [] := by
  have := h.responded
  exact List.eq_nil_of_length_eq_zero (by omega)

/-- A run with nothing left to take has ended. -/
theorem Remaining.observation {n : Nat} (h : Remaining r [] t) (hrun : runSteps n r.start = .next t) :
    r.observation n = some (observe t) :=
  Run.observation_eq_some.mpr ⟨t, hrun, h.responded, rfl⟩

/-- A step takes the next command, or it is a TXB that holds. -/
theorem Remaining.step (hwf : ∀ c ∈ r.commands, c.wellFormed = true) (h : Remaining r cs t) :
    ∃ u, step t = .next u ∧ (Remaining r cs.tail u ∨
      Remaining r cs u ∧ ∃ b rest, cs = .command (.txb b) :: rest) := by
  obtain ⟨hsuffix, hport, hresp⟩ := h
  cases cs with
  | nil => exact ⟨t, step_of_port_nil hport, .inl ⟨hsuffix, hport, hresp⟩⟩
  | cons c rest =>
    obtain ⟨u, hu, ⟨x, hx, hp⟩ | ⟨b, rfl, hx, hp⟩⟩ := step_issued (hwf c (hsuffix.subset (by simp))) hport
    · refine ⟨u, hu, .inl ⟨(List.suffix_cons c rest).trans hsuffix, hp, ?_⟩⟩
      rw [hx, List.length_append, List.length_singleton, List.tail_cons, ← hresp, List.length_cons]
      omega
    · exact ⟨u, hu, .inr ⟨⟨hsuffix, hp.trans hport, by rw [hx, hresp]⟩, b, rest, rfl⟩⟩

end run

section wellFormed
variable {r : Run} (hwf : ∀ c ∈ r.commands, c.wellFormed = true)
include hwf

theorem exists_remaining (k : Nat) : ∃ t cs, runSteps k r.start = .next t ∧ Remaining r cs t := by
  induction k with
  | zero => exact ⟨r.start, r.commands, rfl, remaining_start r⟩
  | succ k ih =>
    obtain ⟨t, cs, hrun, hrem⟩ := ih
    obtain ⟨u, hu, hrem' | ⟨hrem', -⟩⟩ := hrem.step hwf
    · exact ⟨u, cs.tail, runSteps_succ_last hrun hu, hrem'⟩
    · exact ⟨u, cs, runSteps_succ_last hrun hu, hrem'⟩

/-- What a run that has ended shows stays. -/
theorem observation_stable {j k : Nat} {o : Observation} (h : r.observation j = some o) (hjk : j ≤ k) :
    r.observation k = some o := by
  obtain ⟨t, hrun, hresp, rfl⟩ := Run.observation_eq_some.mp h
  obtain ⟨t', cs, hrun', hrem⟩ := exists_remaining hwf j
  cases hrun.symm.trans hrun'
  obtain rfl := hrem.eq_nil hresp
  obtain ⟨d, rfl⟩ := Nat.exists_eq_add_of_le hjk
  exact hrem.observation ((runSteps_add hrun d).trans (runSteps_of_port_nil hrem.port d))

theorem observation_unique {j k : Nat} {o o' : Observation} (hj : r.observation j = some o)
    (hk : r.observation k = some o') : o = o' := by
  rcases Nat.le_total j k with h | h
  · exact Option.some.inj ((observation_stable hwf hj h).symm.trans hk)
  · exact Option.some.inj (hj.symm.trans (observation_stable hwf hk h))

/-- Without TXB every step takes a command. -/
theorem remaining_drop (htxb : ∀ b, .command (.txb b) ∉ r.commands) (k : Nat) :
    ∃ t, runSteps k r.start = .next t ∧ Remaining r (r.commands.drop k) t := by
  induction k with
  | zero => exact ⟨r.start, rfl, remaining_start r⟩
  | succ k ih =>
    obtain ⟨t, hrun, hrem⟩ := ih
    obtain ⟨u, hu, hrem' | ⟨-, b, rest, hcs⟩⟩ := hrem.step hwf
    · rw [List.tail_drop] at hrem'
      exact ⟨u, runSteps_succ_last hrun hu, hrem'⟩
    · exact absurd (hrem.suffix.subset (by simp [hcs])) (htxb b)

/-- From a state with commands left the run ends, or one of its TXBs, from some step on, holds for ever; by induction on
the commands left. -/
theorem ends_or_holds_forever (cs : List Issued) : ∀ {n : Nat} {t : State}, runSteps n r.start = .next t →
    Remaining r cs t → (∃ k o, r.observation k = some o) ∨
      ∃ (n : Nat) (b : Byte) (rest : List Byte), .command (.txb b) ∈ r.commands ∧
        ∀ k ≥ n, ∃ t, runSteps k r.start = .next t ∧ t.port = 0x20 :: b :: rest := by
  induction cs with
  | nil => exact fun hrun hrem => .inl ⟨_, _, hrem.observation hrun⟩
  | cons c cs ih =>
    intro n t hrun hrem
    by_cases htaken : ∃ k u, runSteps k r.start = .next u ∧ Remaining r cs u
    · obtain ⟨k, u, hrun', hrem'⟩ := htaken
      exact ih hrun' hrem'
    · have hheld : ∀ d, ∃ u, runSteps (n + d) r.start = .next u ∧ Remaining r (c :: cs) u := by
        intro d
        induction d with
        | zero => exact ⟨t, hrun, hrem⟩
        | succ d ihd =>
          obtain ⟨u, hu, hremu⟩ := ihd
          obtain ⟨v, hv, hremv | ⟨hremv, -⟩⟩ := hremu.step hwf
          · exact absurd ⟨_, v, runSteps_succ_last hu hv, hremv⟩ htaken
          · exact ⟨v, runSteps_succ_last hu hv, hremv⟩
      obtain ⟨v, hv, hremv | ⟨-, b, rest, hc⟩⟩ := hrem.step hwf
      · exact absurd ⟨_, v, runSteps_succ_last hrun hv, hremv⟩ htaken
      · obtain ⟨rfl, rfl⟩ := List.cons.inj hc
        refine .inr ⟨n, b, cs.flatMap Issued.bytes, hrem.suffix.subset (by simp), fun k hk => ?_⟩
        obtain ⟨d, rfl⟩ := Nat.exists_eq_add_of_le hk
        obtain ⟨u, hu, hremu⟩ := hheld d
        exact ⟨u, hu, hremu.port⟩

end wellFormed

/-- Settles O52: what is left of a run never grows, and it stays the same only while a TXB holds. -/
theorem runEndsWithOneObservation : Obligations.RunEndsWithOneObservation := by
  refine fun r hwf => ⟨fun j k o o' hj hk => ⟨observation_unique hwf hj hk, ?_⟩, fun htxb => ?_, ?_⟩
  · obtain ⟨t, -, hresp, rfl⟩ := Run.observation_eq_some.mp hj
    exact hresp
  · obtain ⟨t, hrun, hrem⟩ := remaining_drop hwf htxb r.commands.length
    rw [List.drop_length] at hrem
    exact ⟨_, hrem.observation hrun⟩
  · exact ends_or_holds_forever hwf r.commands (n := 0) rfl (remaining_start r)

end Sys2Proof.Machine
end

section
/-! What reached the wire of a failed write influences nothing (R132, R179): a simulation between a state and the same
state with other write answers, and another write history, that agree in success and failure. -/

namespace Sys2Proof.Machine

/-- The state with other write answers to come and another write history. -/
def withAnswers (as : List WriteAnswer) (es : List WriteEvent) (s : State) : State :=
  { s with env := { s.env with writes := as }, writes := es }

section operations
variable (as : List WriteAnswer) (es : List WriteEvent) (s : State)

theorem alignProc_withAnswers :
    alignProc (withAnswers as es s) = ((alignProc s).1, withAnswers as es (alignProc s).2) := rfl

theorem extractFrame_withAnswers (a : Bool) :
    extractFrame a (withAnswers as es s) = ((extractFrame a s).1, withAnswers as es (extractFrame a s).2) := by
  rcases extractFrame_of_raw_eq a (s := s) (u := withAnswers as es s) rfl with ⟨f, rest, h, h'⟩ | ⟨h, h'⟩ <;>
    rw [h, h']
  rfl

theorem takeRead_withAnswers (r : ReadAnswer) :
    takeRead r (withAnswers as es s) = ((takeRead r s).1, withAnswers as es (takeRead r s).2) := by
  cases r with
  | fail => rfl
  | data n b =>
    have hreceive : receive n b (withAnswers as es s) = withAnswers as es (receive n b s) := by
      rw [receive_eq n b s rfl, receive_eq n b (withAnswers as es s) rfl]
      rfl
    rw [takeRead_data, takeRead_data, hreceive, alignProc_withAnswers, extractFrame_withAnswers]

theorem transportRead_withAnswers : transportRead (withAnswers as es s) =
    ((transportRead s).1, withAnswers as es (transportRead s).2) := by
  rcases transportRead_cases s with ⟨a, rest, hr, -⟩ | ⟨hr, -⟩ <;>
    simp only [transportRead, withAnswers, hr]

theorem readFrame_withAnswers :
    readFrame (withAnswers as es s) = ((readFrame s).1, withAnswers as es (readFrame s).2) := by
  rcases readFrame_cases s with ⟨hl, h⟩ | ⟨hl, h⟩ <;>
    rcases readFrame_cases (withAnswers as es s) with ⟨hl', h'⟩ | ⟨hl', h'⟩
  · rw [h, h', alignProc_withAnswers, extractFrame_withAnswers]
  · exact absurd hl' (Nat.not_lt.mpr hl)
  · exact absurd hl (Nat.not_lt.mpr hl')
  · rw [h, h', alignProc_withAnswers, transportRead_withAnswers, takeRead_withAnswers]

theorem now_withAnswers : now (withAnswers as es s) = ((now s).1, withAnswers as es (now s).2) := by
  rcases now_cases s with ⟨d, rest, hr, -⟩ | ⟨hr, -⟩ <;>
    simp only [now, withAnswers, hr]

end operations

/-- No command but TXB sees the write answers or the history. -/
theorem exec_withAnswers {i : Instr} (hi : ∀ b, i ≠ .txb b) (as : List WriteAnswer) (es : List WriteEvent) {s s' : State}
    (hs : exec i s = .next s') : exec i (withAnswers as es s) = .next (withAnswers as es s') := by
  cases i with
  | nop | enc | dec | chk | valb | align | clrcnt | srst =>
    cases hs
    rfl
  | rdfr => exact exec_receive_commutes (s := s) (fun _ _ _ => rfl) rfl (readFrame_withAnswers as es s) (.inl rfl) hs
  | rxb => exact exec_receive_commutes (s := s) (fun _ _ _ => rfl) rfl (readFrame_withAnswers as es s) (.inr rfl) hs
  | txb b => exact absurd rfl (hi b)
  | rdsr idx => exact exec_rdsr_commutes (F := withAnswers as es) (fun _ _ _ => rfl) rfl hs

/-- Two states that differ in nothing but write answers and write events, which agree in success and failure: what they
differ in is what reached the wire. -/
def SameButWireBytes (s t : State) : Prop := ∃ as es, t = withAnswers as es s ∧
  s.env.writes.map writeOk = as.map writeOk ∧ s.writes.map WriteEvent.observed = es.map WriteEvent.observed

/-- A transmission with listed answers that agree in success and failure. -/
theorem transmit_sameButWireBytes_of_writes (b : Byte) (w : Word) {s : State} {a a' : WriteAnswer}
    {as as' : List WriteAnswer} {es : List WriteEvent} (hs : s.env.writes = a :: as) (ha : writeOk a = writeOk a')
    (has : as.map writeOk = as'.map writeOk) (hes : s.writes.map WriteEvent.observed = es.map WriteEvent.observed) :
    SameButWireBytes (transmit b w s) (transmit b w (withAnswers (a' :: as') es s)) := by
  refine ⟨as', es ++ [⟨enc s.params b, a', w⟩], ?_, ?_, ?_⟩
  · rw [transmit_of_writes b w hs, transmit_of_writes b w (s := withAnswers (a' :: as') es s) rfl, ← ha]
    rfl
  · rw [transmit_of_writes b w hs]
    exact has
  · rw [transmit_of_writes b w hs]
    simp [hes, WriteEvent.observed, ha]

/-- A transmission sees of the write's answer its success or failure; without a listed one both states draw the same. -/
theorem transmit_sameButWireBytes (b : Byte) (w : Word) {s t : State} (h : SameButWireBytes s t) :
    SameButWireBytes (transmit b w s) (transmit b w t) := by
  obtain ⟨as, es, rfl, has, hes⟩ := h
  cases hs : s.env.writes with
  | nil =>
    obtain rfl : as = [] := by simpa [hs] using has
    have hdraw := transmit_congr b w (writeAnswer_unlisted hs) rfl
    have hdraw' := transmit_congr b w (writeAnswer_unlisted (s := withAnswers [] es s) rfl) rfl
    rw [hdraw, hdraw']
    exact transmit_sameButWireBytes_of_writes b w (s := listingWrite (Config.freeWrite s.env.draws) s)
      (as := []) (as' := []) rfl rfl rfl hes
  | cons a rest =>
    cases as with
    | nil => simp [hs] at has
    | cons a' rest' =>
      rw [hs, List.map_cons, List.map_cons] at has
      obtain ⟨ha, hrest⟩ := List.cons.inj has
      exact transmit_sameButWireBytes_of_writes b w hs ha hrest hes

theorem exec_sameButWireBytes {i : Instr} {s t s' : State} (h : SameButWireBytes s t) (hs : exec i s = .next s') :
    ∃ t', exec i t = .next t' ∧ SameButWireBytes s' t' := by
  by_cases hi : ∃ b, i = .txb b
  · obtain ⟨b, rfl⟩ := hi
    obtain ⟨as, es, rfl, has, hes⟩ := h
    have hnow := now_withAnswers as es s
    have hsampled : SameButWireBytes (now s).2 (withAnswers as es (now s).2) := by
      obtain ⟨e, he, -, hwrites, -⟩ := now_state s
      refine ⟨as, es, rfl, ?_, by rwa [now_writes]⟩
      rw [he, hwrites, has]
    rcases exec_txb_cases b s with ⟨hw, hx⟩ | ⟨hw, hx⟩ <;> cases hx.symm.trans hs
    · refine ⟨_, exec_txb_of_wait b (by rw [hnow]; exact hw), ?_⟩
      rw [hnow]
      obtain ⟨as', es', heq, hrel⟩ := hsampled
      exact ⟨as', es', by rw [heq]; rfl, hrel⟩
    · refine ⟨_, exec_txb_of_not_wait b (by rw [hnow]; exact hw), ?_⟩
      rw [hnow]
      exact transmit_sameButWireBytes b _ hsampled
  · have hi' : ∀ b, i ≠ .txb b := fun b hb => hi ⟨b, hb⟩
    obtain ⟨as, es, rfl, has, hes⟩ := h
    refine ⟨_, exec_withAnswers hi' as es hs, as, es, rfl, ?_⟩
    obtain ⟨m, reads, draws, r, rfl⟩ := (executes_of_exec hs).frame_of_ne_txb hi'
    exact ⟨has, hes⟩

theorem withoutCommand_sameButWireBytes (e : DecodeError) {s t : State} (h : SameButWireBytes s t) :
    SameButWireBytes (withoutCommand e s) (withoutCommand e t) := by
  obtain ⟨as, es, rfl, hrel⟩ := h
  cases e <;> exact ⟨as, es, rfl, hrel⟩

theorem step_sameButWireBytes {s t s' : State} (h : SameButWireBytes s t) (hs : step s = .next s') :
    ∃ t', step t = .next t' ∧ SameButWireBytes s' t' := by
  have hport : t.port = s.port := by
    obtain ⟨as, es, rfl, -⟩ := h
    rfl
  rcases step_cases s with ⟨i, rest, hd, hx⟩ | ⟨e, hd, hx⟩
  · have h' : SameButWireBytes { s with port := rest } { t with port := rest } := by
      obtain ⟨as, es, rfl, hrel⟩ := h
      exact ⟨as, es, rfl, hrel⟩
    obtain ⟨t', ht', hrel⟩ := exec_sameButWireBytes h' (hx ▸ hs)
    exact ⟨t', (step_of_decode_eq_ok (hport ▸ hd)).trans ht', hrel⟩
  · cases hx.symm.trans hs
    exact ⟨_, step_of_decode_eq_error (hport ▸ hd), withoutCommand_sameButWireBytes e h⟩

theorem runSteps_sameButWireBytes (k : Nat) {s t : State} (h : SameButWireBytes s t) :
    ∃ s' t', runSteps k s = .next s' ∧ runSteps k t = .next t' ∧ SameButWireBytes s' t' := by
  induction k generalizing s t with
  | zero => exact ⟨s, t, rfl, rfl, h⟩
  | succ k ih =>
    obtain ⟨s1, hs1⟩ := exists_step s
    obtain ⟨t1, ht1, h1⟩ := step_sameButWireBytes h hs1
    rw [runSteps_succ hs1, runSteps_succ ht1]
    exact ih h1

theorem observe_of_sameButWireBytes {s t : State} (h : SameButWireBytes s t) : observe t = observe s := by
  obtain ⟨as, es, rfl, -, hes⟩ := h
  simp only [observe, withAnswers, hes]

/-- Settles O53: the two runs stay alike step by step, and an observation shows of a write what they agree in. -/
theorem observationHidesTheEmittedPrefix : Obligations.ObservationHidesTheEmittedPrefix := by
  intro r answers k hanswers
  have hstart : SameButWireBytes r.start { r with writes := answers }.start := ⟨answers, [], rfl, hanswers, rfl⟩
  obtain ⟨s, t, hs, ht, h⟩ := runSteps_sameButWireBytes k hstart
  have hresp : t.responses = s.responses := congrArg Observation.responses (observe_of_sameButWireBytes h)
  simp only [Run.observation, hs, ht, hresp, observe_of_sameButWireBytes h]

end Sys2Proof.Machine
end
